-- ==== Sys2Proof/Word.lean ====
section
/-! DEFINITION. The widths of the block (00_scope.md R8, R9): every value is an unsigned number of a
fixed width, bit 0 the least significant (R14). -/

namespace Sys2Proof

/-- `BYTEW` = 8: an input byte, and the index of a table entry (R8, R50). -/
abbrev Byte := BitVec 8

/-- `XLEN` = `LENW` = 32: the polynomial, a table entry, the running state, the result, the operands
`offset` and `length`, and `BUFLEN` (R8, R9). -/
abbrev Word := BitVec 32

/-- `CMDW` = 72: a command word `cmd[71:0]` (R9, R70). -/
abbrev CmdWord := BitVec 72

/-- `RSPW` = 36: a response word `rsp[35:0]` (R9, R76). -/
abbrev RspWord := BitVec 36

/-- `NTAB` = 256 entries of `XLEN` bits: the register file `TABLE` (R8, R21). -/
abbrev Table := Vector Word 256

end Sys2Proof
end

