-- ==== Sys2Proof/Syntax.lean ====
section
/-! DEFINITION. What passes over the block's ports: the eight commands, one constructor per row of
spec/opcode_table.json (30_encoding.md R73); the answer to one (R76); and what the host can do (70 R195). -/

namespace Sys2Proof

/-- The eight commands (R73), their operands at the exact width of their field (R72): a byte operand cannot
be out of range and no polynomial is ill-formed. -/
inductive Instr where
  | buildD                          -- BUILD.D, construct with the default polynomial (R96)
  | buildP (p : Word)               -- BUILD.P, construct with polynomial p (R97)
  | reset                           -- RESET, begin a new computation on the same table (R116)
  | updb (b : Byte)                 -- UPDB, fold one immediate byte (R120)
  | updr (offset length : Word)     -- UPDR, fold a sub-range of the input buffer (R123)
  | final                           -- FINAL, publish the checksum (R142)
  | setlen (n : Word)               -- SETLEN, set the length of the input sequence (R118)
  | rdtab (i : Byte)                -- RDTAB, read one table entry (R98)
  deriving DecidableEq, Repr

/-- Why a 72-bit word is no command (R75). The block answers both alike, with IllegalCommand. -/
inductive DecodeError where
  | unassignedOpcode                -- opcode 0x00, or 0x09 to 0xFF
  | reservedBits                    -- an assigned opcode with a 1 in a reserved bit
  deriving DecidableEq, Repr

/-- The error classes the block raises (60_exceptions.md R151, R152, R153). ConstructionError and SequenceError
are never raised and have no code (R154, R155). -/
inductive Err where
  | rangeError
  | illegalCommand
  | notConstructed
  deriving DecidableEq, Repr

/-- The one answer every command ends with (R12, R76): success with the data returned, or an error, which
carries no data. -/
inductive Response where
  | ok (data : Word)
  | error (e : Err)
  deriving DecidableEq, Repr

/-- One thing the host does between two commands (R195): issue a command word and wait for its answer, write a byte
of its buffer, assert power-on reset. Sampling the outputs changes nothing and needs no action. -/
inductive HostAction where
  | issue (w : CmdWord)
  | writeBuf (a : Word) (b : Byte)
  | powerOn
  deriving DecidableEq, Repr

end Sys2Proof
end

