-- ==== Sys2Proof/WellFormed.lean ====
section
/-! DEFINITION. When a command word is legal, written from the opcode map's masks (30_encoding.md R73): the
reading of the encoding that the decoder, written from the formats (R71, R74), is held against. -/

namespace Sys2Proof

/-- One row of the opcode map (R73). -/
structure OpcodeRow where
  mnemonic : String
  mask     : CmdWord
  pattern  : CmdWord
  deriving DecidableEq, Repr

/-- The eight rows of R73, in the table's order. -/
def opcodeRows : List OpcodeRow :=
  [ ⟨"BUILD.D", 0xFFFFFFFFFFFFFFFFFF#72, 0x010000000000000000#72⟩,
    ⟨"BUILD.P", 0xFFFFFFFFFF00000000#72, 0x020000000000000000#72⟩,
    ⟨"RESET",   0xFFFFFFFFFFFFFFFFFF#72, 0x030000000000000000#72⟩,
    ⟨"UPDB",    0xFFFFFFFFFFFFFFFF00#72, 0x040000000000000000#72⟩,
    ⟨"UPDR",    0xFF0000000000000000#72, 0x050000000000000000#72⟩,
    ⟨"FINAL",   0xFFFFFFFFFFFFFFFFFF#72, 0x060000000000000000#72⟩,
    ⟨"SETLEN",  0xFFFFFFFFFF00000000#72, 0x070000000000000000#72⟩,
    ⟨"RDTAB",   0xFFFFFFFFFFFFFFFF00#72, 0x080000000000000000#72⟩ ]

/-- "a word `w` is the command of a row exactly when `w & mask = match`" (R73). -/
def OpcodeRow.isMatch (r : OpcodeRow) (w : CmdWord) : Bool := w &&& r.mask == r.pattern

/-- The word matches some row; otherwise it is illegal (R73, R75). -/
def wordLegal (w : CmdWord) : Bool := opcodeRows.any fun r => r.isMatch w

/-- The row of a command. -/
def Instr.row : Instr → OpcodeRow
  | .buildD     => ⟨"BUILD.D", 0xFFFFFFFFFFFFFFFFFF#72, 0x010000000000000000#72⟩
  | .buildP _   => ⟨"BUILD.P", 0xFFFFFFFFFF00000000#72, 0x020000000000000000#72⟩
  | .reset      => ⟨"RESET",   0xFFFFFFFFFFFFFFFFFF#72, 0x030000000000000000#72⟩
  | .updb _     => ⟨"UPDB",    0xFFFFFFFFFFFFFFFF00#72, 0x040000000000000000#72⟩
  | .updr _ _   => ⟨"UPDR",    0xFF0000000000000000#72, 0x050000000000000000#72⟩
  | .final      => ⟨"FINAL",   0xFFFFFFFFFFFFFFFFFF#72, 0x060000000000000000#72⟩
  | .setlen _   => ⟨"SETLEN",  0xFFFFFFFFFF00000000#72, 0x070000000000000000#72⟩
  | .rdtab _    => ⟨"RDTAB",   0xFFFFFFFFFFFFFFFF00#72, 0x080000000000000000#72⟩

/-- A command as a term is well formed for every operand: the type of each operand holds exactly the values its field
holds (R72), and every one of them is accepted (R97, R118, R120, R123, R98). What can be ill formed is a word:
`wordLegal`. -/
def Instr.wellFormed : Instr → Bool
  | .buildD     => true
  | .buildP _   => true
  | .reset      => true
  | .updb _     => true
  | .updr _ _   => true
  | .final      => true
  | .setlen _   => true
  | .rdtab _    => true

end Sys2Proof
end

