-- ==== Sys2Proof/Decode.lean ====
section
/-! DEFINITION. From a 72-bit command word to a command, total, refusing by name (30_encoding.md R70 to R75); the
encoder of the same layout; and the response word (R76, R156). The word travels on parallel bits, so there is no
byte order to decide (R58). -/

namespace Sys2Proof

/-- `opcode` = `cmd[71:64]` (R70). -/
def opcodeOf (w : CmdWord) : Byte := w.extractLsb' 64 8

/-- `A` = `cmd[63:32]` (R70); in format X this is `offset` (R72). -/
def fieldA (w : CmdWord) : Word := w.extractLsb' 32 32

/-- `B` = `cmd[31:0]` (R70): `imm32` in format W, `length` in format X (R72). -/
def fieldB (w : CmdWord) : Word := w.extractLsb' 0 32

/-- `imm8` = `cmd[7:0]`, format Y (R71, R72). -/
def imm8 (w : CmdWord) : Byte := w.extractLsb' 0 8

/-- `cmd[31:8]`, the reserved part of `B` in format Y (R71). -/
def fieldBHigh (w : CmdWord) : BitVec 24 := w.extractLsb' 8 24

/-- Format Z (R71): `A` and `B` are reserved, all zero. -/
def formatZ (w : CmdWord) (i : Instr) : Except DecodeError Instr :=
  if fieldA w = 0 ∧ fieldB w = 0 then .ok i else .error .reservedBits

/-- Format W (R71): `A` is reserved, `imm32` = `B`. -/
def formatW (w : CmdWord) (f : Word → Instr) : Except DecodeError Instr :=
  if fieldA w = 0 then .ok (f (fieldB w)) else .error .reservedBits

/-- Format Y (R71): `A` and `cmd[31:8]` are reserved, `imm8` = `cmd[7:0]`. -/
def formatY (w : CmdWord) (f : Byte → Instr) : Except DecodeError Instr :=
  if fieldA w = 0 ∧ fieldBHigh w = 0 then .ok (f (imm8 w)) else .error .reservedBits

/-- Format X (R71): `offset` = `A`, `length` = `B`, no reserved bit. -/
def formatX (w : CmdWord) (f : Word → Word → Instr) : Except DecodeError Instr :=
  .ok (f (fieldA w) (fieldB w))

/-- R74: decoding is total and reads no state. -/
def decode (w : CmdWord) : Except DecodeError Instr :=
  match (opcodeOf w).toNat with
  | 0x01 => formatZ w .buildD
  | 0x02 => formatW w .buildP
  | 0x03 => formatZ w .reset
  | 0x04 => formatY w .updb
  | 0x05 => formatX w .updr
  | 0x06 => formatZ w .final
  | 0x07 => formatW w .setlen
  | 0x08 => formatY w .rdtab
  | _ => .error .unassignedOpcode

/-- The layout `{opcode, A, B}` of R70. -/
def packWord (opcode : Byte) (a b : Word) : CmdWord := opcode ++ a ++ b

/-- The word of a command, reserved bits zero (R71, R73). -/
def encode : Instr → CmdWord
  | .buildD        => packWord 0x01 0 0
  | .buildP p      => packWord 0x02 0 p
  | .reset         => packWord 0x03 0 0
  | .updb b        => packWord 0x04 0 (b.setWidth 32)
  | .updr off len  => packWord 0x05 off len
  | .final         => packWord 0x06 0 0
  | .setlen n      => packWord 0x07 0 n
  | .rdtab i       => packWord 0x08 0 (i.setWidth 32)

/-- The command this decoder reads from the word whose bits are the low `nbits` bits of `w`, the bits above them
zero; bit 0 of `w` is `cmd[0]`, as the opcode table numbers them. -/
def decodeTableWord (nbits w : Nat) : Option Instr :=
  if w % 2 ^ nbits < 2 ^ 72 then (decode (BitVec.ofNat 72 (w % 2 ^ nbits))).toOption else none

/-- The error codes of R156. -/
def Err.code : Err → BitVec 4
  | .rangeError     => 0x1
  | .illegalCommand => 0x2
  | .notConstructed => 0x3

/-- `rsp[35:32]` (R76, R156). -/
def Response.code : Response → BitVec 4
  | .ok _    => 0x0
  | .error e => e.code

/-- `rsp[31:0]` (R76): the value returned; 0 on every error. -/
def Response.data : Response → Word
  | .ok d    => d
  | .error _ => 0

/-- The response word `{code, data}` of R76. -/
def Response.word (r : Response) : RspWord := r.code ++ r.data

end Sys2Proof
end

