-- ==== Sys2Proof/Config.lean ====
section
/-! DEFINITION. The parameters the source document fixes (00_scope.md R8), and the one value the spec leaves
free: what a buffer byte reads as that the host never wrote (20_memory.md R53, 93 V3). -/

namespace Sys2Proof.Config

/-- `DEFAULT_POLY` (R8): the polynomial of `construct` when none is given. -/
def defaultPoly : Word := 0xEDB88320#32

/-- `INIT` (R8): the value the running state takes when the state is reset. -/
def initState : Word := 0xFFFFFFFF#32

/-- `NITER` (R8): iterations of the shift-and-XOR step for one table entry. -/
def niter : Nat := 8

/-- FREE VALUE (R35, R53, 93 V3 "any value (a draw per read)"): the byte that read number `n` of a buffer address
the host never wrote gives. It has no body, so nothing can be proved of its value. Log entry 3. -/
opaque unwrittenByte : Nat → Byte

end Sys2Proof.Config
end

