-- ==== Sys2Proof/Machine/State.lean ====
section
/-! DEFINITION. The state of one block (10_state.md), the host's buffer and the two channels beside it, and the reset
state (R38, R180). -/

namespace Sys2Proof.Machine

/-- What the block holds once a construction command has made an engine (R27): `POLY` (R20), `TABLE` (R21), `STATE`
(R22) and `RESULT` (R24). `RESULT` is the spec's own optional register: RESET and construction write "no value" to it
(R96, R97, R116), which is neither zero nor the old bits (92 D10), and 93 V2 says to hold it as an absent value. `RV`
(R28), "1 when `RESULT` holds the value of a FINAL", is `result.isSome`. -/
structure Engine where
  poly    : Word
  table   : Table
  running : Word            -- `STATE`
  result  : Option Word
  deriving DecidableEq, Repr

/-- The host's byte buffer `BUF` (R51) as the bytes the host has written: addresses strictly rising, below 2^32. An
unlisted address is one the host never wrote; it has no value (R35), so no listed entry equals it. -/
abbrev Memory := List Host.Cell

/-- The published outputs of R33; `hash_o` has no value while `hash_valid_o` = 0. -/
structure Outputs where
  built_o      : Bool
  hash_valid_o : Bool
  hash_o       : Option Word
  deriving DecidableEq, Repr

/-- Everything the spec gives one block, its input buffer and its ports.

`engine`: the spec's `BUILT` (R27) is `engine.isSome`. Before the first construction command there is no engine, and
`POLY`, `TABLE` and `STATE` hold "no value" (R35, R38, R180), a state the spec itself defines (R19), to which it gives
the form "an absent value (an option type), so that a rule which read it would be a type error" (93 V1). Nothing
stops for it: a command that needs an engine is answered with NotConstructed (R153). Log entry 1. -/
structure State where
  engine   : Option Engine
  buflen   : Word                 -- `BUFLEN` (R26)
  buf      : Memory               -- `BUF` (R51), the host's
  rsp      : Option Response      -- the last answer on the command channel (R32); none before the first
  hostActs : List HostAction      -- what the host does next, soonest first (R11, R195); the block sees one at a time
  draws    : Nat                  -- the model's own: reads of never-written buffer bytes so far (log entry 3)
  deriving DecidableEq, Repr

/-- Why the block would stop. It has no constructor: every word is answered and the block goes on (R76, R158, R160);
no rule gives a stop. Safe: nothing can be claimed by stopping. -/
inductive Fault where
  deriving DecidableEq, Repr

/-- Why the model gives no meaning. -/
inductive Refusal where
  /-- A row of the opcode table without a meaning yet. Raised by nobody: all eight have theirs. Safe. -/
  | notModelled (mnemonic : String)
  deriving DecidableEq, Repr

/-- What a meaning answers. -/
abbrev Answer := Host.Outcome State Fault Refusal

/-- Power-on reset (R38, R180): no engine (`BUILT` = 0, `RV` = 0, the data registers without a value), `BUFLEN` = 0.
No answer has been given and the host has written and planned nothing. -/
def State.reset : State where
  engine   := none
  buflen   := 0
  buf      := []
  rsp      := none
  hostActs := []
  draws    := 0

end Sys2Proof.Machine
end

