-- ==== Sys2Proof/Machine/Ops.lean ====
section
/-! DEFINITION. The named operations over the two memories and the registers; ending a command with an answer; taking
an error, the block's one exception (60_exceptions.md R158); power-on reset (R180, R183). -/

namespace Sys2Proof.Machine

/-! ### The input buffer `BUF` -/

/-- The canonical form of `BUF`: addresses strictly rising and 32 bits wide (R51). -/
abbrev Memory.wf (m : Memory) : Prop :=
  m.Pairwise (fun c d => c.1 < d.1) ∧ ∀ c ∈ m, c.1 < 2 ^ 32

/-- The byte the host last placed at `a`; none where it never wrote (R53). -/
def Memory.byteAt : Memory → Nat → Option Byte
  | [], _ => none
  | c :: m, a => if c.1 = a then some c.2 else Memory.byteAt m a

/-- The host writes byte `b` at address `a` (R53, R195). -/
def Memory.write : Memory → Nat → Byte → Memory
  | [], a, b => [(a, b)]
  | c :: m, a, b =>
    if a < c.1 then (a, b) :: c :: m
    else if a = c.1 then (a, b) :: m
    else c :: Memory.write m a b

/-- `BufRead(a)` (R53), with the number of free bytes drawn so far before and after: a byte the host never wrote is a
fresh free value (R35, 93 V3). Reading changes no byte. -/
def bufRead (m : Memory) (a draws : Nat) : Byte × Nat :=
  match m.byteAt a with
  | some b => (b, draws)
  | none   => (Config.unwrittenByte draws, draws + 1)

/-- `[BufRead(a), …, BufRead(a + len - 1)]`, ascending, each address once (R34, R123). -/
def bufReads (m : Memory) (a : Nat) : Nat → Nat → List Byte × Nat
  | 0, draws => ([], draws)
  | len + 1, draws =>
    let r  := bufRead m a draws
    let rs := bufReads m (a + 1) len r.2
    (r.1 :: rs.1, rs.2)

/-! ### The table space -/

/-- `TABLE[i]` (R50): whole-entry access by an 8-bit index, so no access is out of bounds. -/
def tableAt (t : Table) (i : Byte) : Word := t[i.toNat]'i.isLt

/-! ### The registers, each under the spec's name; `none` is the spec's "no value" (R35) -/

def State.poly (s : State) : Option Word := s.engine.map Engine.poly

def State.table (s : State) : Option Table := s.engine.map Engine.table

/-- The spec's `STATE`. No command returns it (R23). -/
def State.running (s : State) : Option Word := s.engine.map Engine.running

def State.result (s : State) : Option Word := s.engine.bind Engine.result

/-! ### Ending a command -/

/-- `respond OK(d)` (R16, R76). -/
def State.respond (s : State) (d : Word) : State := { s with rsp := some (.ok d) }

/-- TAKING AN ERROR, `raise <Error>` (R16, R158): the answer carries the code, and no state element and no published
output changes. Nothing is saved, no mode changes, control goes nowhere; there is nothing to return from (R160), so no
operation returns: the block takes the next command as after any answer. -/
def State.raise (s : State) (e : Err) : State := { s with rsp := some (.error e) }

/-- `if BUILT = 0 then raise NotConstructed` (R153), the first line of every command that needs an engine. -/
def State.withEngine (s : State) (f : Engine → Answer) : Answer :=
  match s.engine with
  | none   => .next (s.raise .notConstructed)
  | some e => f e

/-- The registers of the engine take new values. -/
def State.setEngine (s : State) (e : Engine) : State := { s with engine := some e }

/-- POWER-ON RESET (R180): every register of the block as R38 has it, and no answer (R183). The buffer and the plans
belong to the host and stay (R51, R62). Log entry 5. -/
def State.powerOnReset (s : State) : State :=
  { s with engine := none, buflen := 0, rsp := none }

end Sys2Proof.Machine
end

