-- ==== Sys2Proof/Machine/Flags.lean ====
section
/-! DEFINITION. The two flags (10_state.md R27, R28) and the published outputs computed from the registers (R33). There is
no other flag, no carry and no condition code (R31). -/

namespace Sys2Proof.Machine

/-- `BUILT` (R27): a construction command has completed since power-on reset. -/
def State.built (s : State) : Bool := s.engine.isSome

/-- `RV` (R28): `RESULT` holds a value. -/
def State.rv (s : State) : Bool := s.result.isSome

/-- `built_o`, `hash_valid_o`, `hash_o` (R33), driven at all times between commands. -/
def State.outputs (s : State) : Outputs where
  built_o      := s.built
  hash_valid_o := s.rv
  hash_o       := s.result

end Sys2Proof.Machine
end

