-- ==== Sys2Proof/Machine/Builder.lean ====
section
/-! DEFINITION. The table builder: 40_table_builder.md R90 to R98. -/

namespace Sys2Proof.Machine

/-- One shift-and-XOR iteration (R90); the shift is logical. -/
def iter1 (p v : Word) : Word := if v[0] then (v >>> 1) ^^^ p else v >>> 1

/-- `iter1(p, .)` applied `k` times. -/
def iterN (p : Word) : Nat → Word → Word
  | 0, v => v
  | k + 1, v => iterN p k (iter1 p v)

/-- `tabEntry(p, i)` (R91): from `zext_32(i)`, eight iterations. -/
def tabEntry (p : Word) (i : Byte) : Word := iterN p Config.niter (i.setWidth 32)

/-- `buildTable(p)` (R92): the 256 entries in index order. -/
def buildTable (p : Word) : Table :=
  ⟨((List.range 256).map fun k => tabEntry p (BitVec.ofNat 8 k)).toArray, by simp⟩

/-- What an engine holds right after `construct(p)` (R95): the table of `p`, the state reset, no result. -/
def freshEngine (p : Word) : Engine where
  poly    := p
  table   := buildTable p
  running := Config.initState
  result  := none

/-- `construct` (R95): a new engine replaces whatever was there; `BUFLEN` stays. -/
def State.construct (s : State) (p : Word) : State := (s.setEngine (freshEngine p)).respond 0

/-- BUILD.D (R96). -/
def execBuildD (s : State) : Answer := .next (s.construct Config.defaultPoly)

/-- BUILD.P `p` (R97): every 32-bit value is a legal polynomial. -/
def execBuildP (p : Word) (s : State) : Answer := .next (s.construct p)

/-- RDTAB `i` (R98). -/
def execRdtab (i : Byte) (s : State) : Answer :=
  s.withEngine fun e => .next (s.respond (tableAt e.table i))

end Sys2Proof.Machine
end

