-- ==== Sys2Proof/Machine/Operands.lean ====
section
/-! DEFINITION. The one operand form that is more than a field of the word: UPDR's sub-range of the input sequence
(41_state_update.md R123 to R126). The field forms are assembled by the decoder (30_encoding.md R72). -/

namespace Sys2Proof.Machine

/-- `offset + length <= BUFLEN`, the sum an integer that does not wrap (R125). -/
def inRange (offset length buflen : Word) : Bool :=
  offset.toNat + length.toNat ≤ buflen.toNat

/-- The bytes of UPDR's sub-range, and the draws after reading them (R123). -/
def State.subRange (s : State) (offset length : Word) : List Byte × Nat :=
  bufReads s.buf offset.toNat length.toNat s.draws

end Sys2Proof.Machine
end

