-- ==== Sys2Proof/Machine/Updater.lean ====
section
/-! DEFINITION. The state updater: 41_state_update.md R110 to R127. -/

namespace Sys2Proof.Machine

/-- `step(T, s, b)` (R110): the fold of one byte; both uses of `s` are the old state. -/
def foldByte (t : Table) (s : Word) (b : Byte) : Word :=
  (s >>> 8) ^^^ tableAt t (b ^^^ s.extractLsb' 0 8)

/-- `fold(T, s, m)` (R111): first byte first. -/
def fold (t : Table) : Word → List Byte → Word
  | s, [] => s
  | s, b :: m => fold t (foldByte t s b) m

/-- The running state takes `m` in; the polynomial, the table and the result stay (R119). -/
def Engine.foldIn (e : Engine) (m : List Byte) : Engine :=
  { e with running := fold e.table e.running m }

/-- RESET (R116): the running state begins anew and the result is discarded. -/
def execReset (s : State) : Answer :=
  s.withEngine fun e =>
    .next ((s.setEngine { e with running := Config.initState, result := none }).respond 0)

/-- SETLEN `n` (R118): legal in every state, touches nothing but `BUFLEN`. -/
def execSetlen (n : Word) (s : State) : Answer := .next ({ s with buflen := n }.respond 0)

/-- UPDB `b` (R120). -/
def execUpdb (b : Byte) (s : State) : Answer :=
  s.withEngine fun e =>
    .next ((s.setEngine { e with running := foldByte e.table e.running b }).respond 0)

/-- UPDR `offset`, `length` (R123): NotConstructed before RangeError (R159), both before the first read (R126). -/
def execUpdr (offset length : Word) (s : State) : Answer :=
  s.withEngine fun e =>
    if inRange offset length s.buflen then
      let m := s.subRange offset length
      .next (({ s with draws := m.2 }.setEngine (e.foldIn m.1)).respond 0)
    else .next (s.raise .rangeError)

end Sys2Proof.Machine
end

