-- ==== Sys2Proof/Machine/Finalizer.lean ====
section
/-! DEFINITION. The finalizer: 42_finalize.md R140 to R146, and the checksum of a byte sequence (00_scope.md R17). -/

namespace Sys2Proof.Machine

/-- `fin(s)` (R140): every bit inverted, none moved. -/
def fin (s : Word) : Word := ~~~s

/-- `crc(p, bytes)` (R17): the source's `computeHash` for an engine constructed with `p`. -/
def crc (p : Word) (m : List Byte) : Word := fin (fold (buildTable p) Config.initState m)

/-- FINAL (R142): an idempotent read (R143); `STATE` stays. -/
def execFinal (s : State) : Answer :=
  s.withEngine fun e =>
    .next ((s.setEngine { e with result := some (fin e.running) }).respond (fin e.running))

end Sys2Proof.Machine
end

