-- ==== Sys2Proof/Machine/Dispatch.lean ====
section
/-! DEFINITION. Which meaning each command has (30_encoding.md R73). -/

namespace Sys2Proof.Machine

def exec (i : Instr) (s : State) : Host.Outcome State Fault Refusal :=
  match i with
  | .buildD => Sys2Proof.Machine.execBuildD s
  | .buildP p => Sys2Proof.Machine.execBuildP p s
  | .reset => Sys2Proof.Machine.execReset s
  | .updb b => Sys2Proof.Machine.execUpdb b s
  | .updr offset length => Sys2Proof.Machine.execUpdr offset length s
  | .final => Sys2Proof.Machine.execFinal s
  | .setlen n => Sys2Proof.Machine.execSetlen n s
  | .rdtab k => Sys2Proof.Machine.execRdtab k s

end Sys2Proof.Machine
end

