-- ==== Sys2Proof/Machine/HostPort.lean ====
section
/-! DEFINITION. The command channel and the host's other ports (10_state.md R32, 70_reset_and_hazards.md R195): one host
action from its first to its last effect. Commands are atomic (00_scope.md R12), so the host has no action inside one
(R188, R191). -/

namespace Sys2Proof.Machine

/-- One command word on the channel (R32): the command it decodes to runs; an illegal word is answered with
IllegalCommand before any state is read (R75, R152). -/
def issueWord (w : CmdWord) (s : State) : Answer :=
  match decode w with
  | .ok i => exec i s
  | .error _ => .next (s.raise .illegalCommand)

/-- The host writes one byte of its buffer between commands (R53, R62); the block is not told. -/
def hostWrite (a : Word) (b : Byte) (s : State) : State :=
  { s with buf := s.buf.write a.toNat b }

/-- One host action (R195). -/
def hostAct : HostAction → State → Answer
  | .issue w, s => issueWord w s
  | .writeBuf a b, s => .next (hostWrite a b s)
  | .powerOn, s => .next s.powerOnReset

/-- The host's next action is to issue the word whose bits are the low `nbits` bits of `w`. -/
def State.presentWord (s : State) (nbits w : Nat) : State :=
  { s with hostActs := .issue (BitVec.ofNat 72 (w % 2 ^ nbits)) :: s.hostActs }

end Sys2Proof.Machine
end

