-- ==== Sys2Proof/Machine/Step.lean ====
section
/-! DEFINITION. One step: the host's next action, whole (00_scope.md R12, R13). The block fetches nothing (R3, R29): its
next command is the one the host issues next. -/

namespace Sys2Proof.Machine

/-- The host's next action; while the host does nothing the block holds its state and does nothing (R174), and such a
state is a legal place to stop (R13). -/
def step (s : State) : Host.Outcome State Fault Refusal :=
  match s.hostActs with
  | [] => .next s
  | act :: rest => hostAct act { s with hostActs := rest }

/-- The command word `w` stands where the next step takes its command: it is what the host issues next. -/
def State.withFetchWord (s : State) (nbits w : Nat) : State := s.presentWord nbits w

end Sys2Proof.Machine
end

