-- ==== Sys2Proof/Machine/Asm.lean ====
section
/-! DEFINITION. The assembler syntax, the pseudo-instructions and the directive (30_encoding.md R78 to R84): a line of
source text to the host actions it stands for. `none` is a line that no rule gives a meaning. -/

namespace Sys2Proof.Machine

/-! ### Pseudo-instructions and the directive -/

/-- One line, read (R78): one of the eight commands, a pseudo-instruction, the directive, or nothing. -/
inductive AsmLine where
  | nothing                                     -- empty, or a comment only
  | command (i : Instr)
  | build (p : Option Word)                     -- BUILD (R79)
  | upds (text : List Byte)                     -- UPDS (R80)
  | dotBuf (a : Word) (bytes : List Byte)       -- .buf (R81)
  | hash (chunks : List (List Byte))            -- HASH (R84)
  deriving DecidableEq, Repr

/-- The host issues the word of a command. -/
def issueInstr (i : Instr) : HostAction := .issue (encode i)

/-- BUILD (R79): the one `construct` with its optional argument. -/
def buildInstr : Option Word → Instr
  | none   => .buildD
  | some p => .buildP p

/-- UPDS (R80): one UPDB per byte, in order. -/
def updsActs (text : List Byte) : List HostAction := text.map fun b => issueInstr (.updb b)

/-- `.buf a, bytes` (R81): the bytes at `a`, `a + 1`, and so on. -/
def bufActs (a : Nat) : List Byte → List HostAction
  | [] => []
  | b :: m => .writeBuf (BitVec.ofNat 32 a) b :: bufActs (a + 1) m

/-- One chunk of HASH (R84): fill the buffer from address 0, tell its length, fold all of it. -/
def chunkActs (c : List Byte) : List HostAction :=
  bufActs 0 c ++
    [issueInstr (.setlen (BitVec.ofNat 32 c.length)), issueInstr (.updr 0 (BitVec.ofNat 32 c.length))]

/-- HASH (R84), DOC00's `computeHash`. -/
def hashActs (chunks : List (List Byte)) : List HostAction :=
  issueInstr .reset :: (chunks.flatMap chunkActs ++ [issueInstr .final])

/-- HASH for a host with no buffer (R84): UPDB commands, one per byte. -/
def hashBytesActs (chunks : List (List Byte)) : List HostAction :=
  issueInstr .reset :: (chunks.flatMap updsActs ++ [issueInstr .final])

/-- The host actions of one line. A directive that runs past the last address, or a chunk whose length no `SETLEN`
can hold, stands for none. -/
def AsmLine.expand : AsmLine → Option (List HostAction)
  | .nothing       => some []
  | .command i     => some [issueInstr i]
  | .build p       => some [issueInstr (buildInstr p)]
  | .upds text     => some (updsActs text)
  | .dotBuf a m    => if a.toNat + m.length ≤ 2 ^ 32 then some (bufActs a.toNat m) else none
  | .hash chunks   => if ∀ c ∈ chunks, c.length < 2 ^ 32 then some (hashActs chunks) else none

/-! ### Source text -/

/-- What a line is made of (R78). -/
inductive Token where
  | word (letters : List Char)       -- a mnemonic or a number
  | char (c : Char)                  -- a character in single quotes
  | text (cs : List Char)            -- a string in double quotes
  | comma
  deriving DecidableEq, Repr

/-- Where the lexer stands; the letters of an unfinished word or string are held last first. -/
inductive LexMode where
  | between
  | inWord (rev : List Char)
  | openChar
  | closeChar (c : Char)
  | inText (rev : List Char)
  deriving DecidableEq, Repr

/-- The letters of the word being read. -/
def LexMode.letters : LexMode → List Char
  | .inWord rev => rev
  | _ => []

/-- The word being read, finished. -/
def LexMode.done : LexMode → List Token
  | .inWord rev => [.word rev.reverse]
  | _ => []

/-- A line into tokens; `;` outside quotes begins a comment (R78). DESIGN CHOICE (log entry 7), the spec being silent:
a quoted text has no escape, so the next double quote always ends it (R80); and a quote needs no blank before or after
it, so UPDB'1' reads as UPDB '1' (R78). -/
def lex : LexMode → List Char → Option (List Token)
  | .between, [] => some []
  | .inWord rev, [] => some [.word rev.reverse]
  | .openChar, [] => none
  | .closeChar _, [] => none
  | .inText _, [] => none
  | .openChar, c :: cs => lex (.closeChar c) cs
  | .closeChar d, c :: cs => if c = '\'' then (lex .between cs).map (.char d :: ·) else none
  | .inText rev, c :: cs =>
    if c = '"' then (lex .between cs).map (.text rev.reverse :: ·) else lex (.inText (c :: rev)) cs
  | mode, c :: cs =>
    if c = ';' then some mode.done
    else if c = ' ' ∨ c = '\t' then (lex .between cs).map (mode.done ++ ·)
    else if c = ',' then (lex .between cs).map (mode.done ++ .comma :: ·)
    else if c = '\'' then (lex .openChar cs).map (mode.done ++ ·)
    else if c = '"' then (lex (.inText []) cs).map (mode.done ++ ·)
    else lex (.inWord (c :: mode.letters)) cs

/-- A decimal digit. -/
def decDigit (c : Char) : Option Nat :=
  if '0' ≤ c ∧ c ≤ '9' then some (c.toNat - '0'.toNat) else none

/-- A hexadecimal digit, either case. -/
def hexDigit (c : Char) : Option Nat :=
  if 'a' ≤ c ∧ c ≤ 'f' then some (c.toNat - 'a'.toNat + 10)
  else if 'A' ≤ c ∧ c ≤ 'F' then some (c.toNat - 'A'.toNat + 10)
  else decDigit c

/-- Digits, most significant first, onto the value read so far. -/
def digits (base : Nat) (digit : Char → Option Nat) : List Char → Nat → Option Nat
  | [], v => some v
  | c :: cs, v => (digit c).bind fun d => digits base digit cs (v * base + d)

/-- "Numbers are decimal, or hexadecimal with `0x`" (R78). -/
def number : List Char → Option Nat
  | [] => none
  | ['0', 'x'] => none
  | '0' :: 'x' :: ds => digits 16 hexDigit ds 0
  | ds => digits 10 decDigit ds 0

/-- A character's 7-bit ASCII code as a byte (R78). -/
def asciiByte (c : Char) : Option Byte :=
  if c.toNat < 128 then some (BitVec.ofNat 8 c.toNat) else none

/-- An operand's value. -/
def Token.value : Token → Option Nat
  | .word letters => number letters
  | .char c => (asciiByte c).map BitVec.toNat
  | .text _ => none
  | .comma => none

/-- An operand that must fit a field of `n` bits (R72: no value outside the field can be expressed). -/
def Token.field (n : Nat) (t : Token) : Option (BitVec n) :=
  t.value.bind fun v => if v < 2 ^ n then some (BitVec.ofNat n v) else none

/-- The bytes of a quoted string. -/
def textBytes (cs : List Char) : Option (List Byte) := cs.mapM asciiByte

/-- The byte list of `.buf` (R81): numbers, characters and quoted strings. DESIGN CHOICE (log entry 7), the spec being
silent: the list may be empty, and commas in it only separate, so that none need stand between two bytes and a leading,
a doubled or a trailing one is skipped. -/
def bytesOf : List Token → Option (List Byte)
  | [] => some []
  | .comma :: ts => bytesOf ts
  | .text cs :: ts => (textBytes cs).bind fun m => (bytesOf ts).map (m ++ ·)
  | t :: ts => (t.field 8).bind fun b => (bytesOf ts).map (b :: ·)

/-- The chunks of HASH (R84), as quoted strings separated by commas. -/
def chunksOf : List Token → Option (List (List Byte))
  | [] => some []
  | [.text cs] => (textBytes cs).map fun m => [m]
  | .text cs :: .comma :: .text ds :: ts =>
    (textBytes cs).bind fun m => (chunksOf (.text ds :: ts)).map (m :: ·)
  | _ => none

/-- The operands after a mnemonic, for the formats of R71. Too few or too many give none (DESIGN CHOICE, log entry 7). -/
def noOperand (l : AsmLine) : List Token → Option AsmLine
  | [] => some l
  | _ => none

def oneOperand (n : Nat) (f : BitVec n → AsmLine) : List Token → Option AsmLine
  | [t] => (t.field n).map f
  | _ => none

def twoOperands (f : Word → Word → AsmLine) : List Token → Option AsmLine
  | [t, .comma, u] => (t.field 32).bind fun a => (u.field 32).map (f a)
  | _ => none

def updsOperand : List Token → Option AsmLine
  | [.text cs] => (textBytes cs).map .upds
  | _ => none

def bufOperands : List Token → Option AsmLine
  | t :: .comma :: ts => (t.field 32).bind fun a => (bytesOf ts).map (.dotBuf a)
  | _ => none

/-- BUILD with or without its operand (R79). -/
def buildOperand : List Token → Option AsmLine
  | [] => some (.build none)
  | ts => oneOperand 32 (fun p => .build (some p)) ts

/-- The forms of R78 to R84. -/
def parseTokens : List Token → Option AsmLine
  | [] => some .nothing
  | .word m :: ts =>
    if m = "BUILD.D".toList then noOperand (.command .buildD) ts
    else if m = "BUILD.P".toList then oneOperand 32 (fun p => .command (.buildP p)) ts
    else if m = "RESET".toList then noOperand (.command .reset) ts
    else if m = "UPDB".toList then oneOperand 8 (fun b => .command (.updb b)) ts
    else if m = "UPDR".toList then twoOperands (fun a b => .command (.updr a b)) ts
    else if m = "FINAL".toList then noOperand (.command .final) ts
    else if m = "SETLEN".toList then oneOperand 32 (fun n => .command (.setlen n)) ts
    else if m = "RDTAB".toList then oneOperand 8 (fun i => .command (.rdtab i)) ts
    else if m = "BUILD".toList then buildOperand ts
    else if m = "UPDS".toList then updsOperand ts
    else if m = "HASH".toList then (chunksOf ts).map .hash
    else if m = ".buf".toList then bufOperands ts
    else none
  | _ => none

/-- One line of source text (R78). -/
def parseLine (line : List Char) : Option AsmLine := (lex .between line).bind parseTokens

/-- Source text into lines (R78: one command per line). Only a line feed ends a line (DESIGN CHOICE, log entry 7). -/
def splitLines : List Char → List (List Char)
  | [] => [[]]
  | c :: cs =>
    if c = '\n' then [] :: splitLines cs
    else match splitLines cs with
      | [] => [[c]]
      | l :: ls => (c :: l) :: ls

/-- A source text into what the host does, in order. DESIGN CHOICE (log entry 7), the spec being silent: one
meaningless line leaves the whole text, its good lines included, without a meaning. -/
def assemble (source : List Char) : Option (List HostAction) :=
  ((splitLines source).mapM fun l => (parseLine l).bind AsmLine.expand).map List.flatten

end Sys2Proof.Machine
end

