-- ==== Sys2Proof/Safety.lean ====
section
/-! DEFINITION. What claims about runs are stated in: the invariants of a state (10_state.md R37), the history R37 speaks of,
and the host's duties (70_reset_and_hazards.md R193). -/

namespace Sys2Proof.Machine

/-- R37 (a): `BUILT = 1` implies `TABLE = buildTable(POLY)`. -/
def TableOfPoly (s : State) : Prop := ∀ e, s.engine = some e → e.table = buildTable e.poly

/-- The buffer is in its canonical form (R51). -/
def BufCanonical (s : State) : Prop := s.buf.wf

/-- The part of a run's past that R37 speaks of; no register of the block holds it (R171). -/
structure History where
  folded     : List Byte       -- every byte folded since the last RESET or construction command
  atFinal    : Option Word     -- the value `STATE` had when the last FINAL since then executed
  sinceFinal : List Byte       -- every byte folded since that FINAL
  deriving DecidableEq, Repr

/-- Nothing has happened yet. -/
def History.start : History := ⟨[], none, []⟩

/-- Bytes are folded. -/
def History.fold (h : History) (m : List Byte) : History :=
  { h with folded := h.folded ++ m, sinceFinal := h.sinceFinal ++ m }

/-- The past after command `i` executes in state `s`; a command that ends in an error leaves no trace (R158). -/
def History.command (h : History) (s : State) : Instr → History
  | .buildD | .buildP _ => History.start
  | .setlen _ | .rdtab _ => h
  | .reset => if s.built then History.start else h
  | .updb b => if s.built then h.fold [b] else h
  | .updr offset length =>
    if s.built ∧ inRange offset length s.buflen then h.fold (s.subRange offset length).1 else h
  | .final =>
    match s.running with
    | none => h
    | some v => { h with atFinal := some v, sinceFinal := [] }

/-- The past after one host action. -/
def History.act (h : History) (s : State) : HostAction → History
  | .issue w =>
    match decode w with
    | .ok i => h.command s i
    | .error _ => h
  | .writeBuf _ _ => h
  | .powerOn => History.start

/-- The past after one step. -/
def History.step (h : History) (s : State) : History :=
  match s.hostActs with
  | [] => h
  | act :: _ => h.act s act

/-- R37 (a) to (d), of a state and its past. -/
structure HistoryHolds (s : State) (h : History) : Prop where
  /-- (a) -/
  table : TableOfPoly s
  /-- (b) -/
  rv_built : s.rv = true → s.built = true
  /-- (c), the value: `RESULT` is the complement of `STATE` at the last FINAL. -/
  result_final : ∀ r, s.result = some r → ∃ v, h.atFinal = some v ∧ r = fin v
  /-- (c), since then: `STATE` is that value with the bytes folded since. -/
  since_final : ∀ e r v, s.engine = some e → e.result = some r → h.atFinal = some v →
    e.running = fold e.table v h.sinceFinal
  /-- (d) -/
  running : ∀ e, s.engine = some e → e.running = fold e.table Config.initState h.folded

/-- The host's duty before UPDR (R193): it has written every byte of the sub-range. -/
def SubRangeWritten (s : State) (offset length : Word) : Prop :=
  ∀ k, k < length.toNat → (s.buf.byteAt (offset.toNat + k)).isSome

/-- Commands executed one after another, in the order of issue (R62). -/
def execAll : List Instr → State → Answer
  | [], s => .next s
  | i :: is, s =>
    match exec i s with
    | .next t => execAll is t
    | .fault r => .fault r
    | .refused r => .refused r

/-- A construction command (R95). -/
def isConstruct : Instr → Bool
  | .buildD | .buildP _ => true
  | .reset | .updb _ | .updr _ _ | .final | .setlen _ | .rdtab _ => false

/-- `RV` after a command that found the flags of `s` (R28). -/
def rvAfter (s : State) : Instr → Bool
  | .final => s.built
  | .reset | .buildD | .buildP _ => false
  | .updb _ | .updr _ _ | .setlen _ | .rdtab _ => s.rv

/-- `BUFLEN` after a command (R26). -/
def buflenAfter (s : State) : Instr → Word
  | .setlen n => n
  | .buildD | .buildP _ | .reset | .updb _ | .updr _ _ | .final | .rdtab _ => s.buflen

/-- A run in which the host carries out what it plans: `k` steps. -/
def runs (k : Nat) (s t : State) : Prop := Sys2Proof.core.run k s = .next t

end Sys2Proof.Machine
end

