-- ==== Sys2Proof/Certificates/Slice0/Obligations.lean ====
section
/-! DEFINITION. The statements about the block, from the numbered rules of spec/, in the order of its files. -/

open Sys2Proof Sys2Proof.Machine

/-! ### Encoding: 30_encoding.md -/

/-- 95 section 2.7: words written out from R70 to R73, one at least for every family, and words that are illegal. -/
def Obligations.SampleWordsDecode : Prop :=
  decode 0x010000000000000000#72 = .ok .buildD ∧
  decode 0x0200000000EDB88320#72 = .ok (.buildP 0xEDB88320#32) ∧
  decode 0x030000000000000000#72 = .ok .reset ∧
  decode 0x0400000000000000FF#72 = .ok (.updb 0xFF#8) ∧
  decode 0x050000000400000005#72 = .ok (.updr 4 5) ∧
  decode 0x060000000000000000#72 = .ok .final ∧
  decode 0x0700000000FFFFFFFF#72 = .ok (.setlen 0xFFFFFFFF#32) ∧
  decode 0x080000000000000080#72 = .ok (.rdtab 0x80#8) ∧
  decode 0x000000000000000000#72 = .error .unassignedOpcode ∧
  decode 0x090000000000000000#72 = .error .unassignedOpcode ∧
  decode 0x038000000000000000#72 = .error .reservedBits ∧
  decode 0x080000000000000100#72 = .error .reservedBits

/-- R73, R74: decoding the word of a command gives the command back, with every operand at every value. -/
def Obligations.DecodeEncode : Prop :=
  ∀ i : Instr, i.wellFormed = true → decode (encode i) = .ok i

/-- R73, R75: a legal word is the word of the command it decodes to, so no two words are the same command. -/
def Obligations.EncodeDecode : Prop :=
  ∀ (w : CmdWord) (i : Instr), decode w = .ok i → encode i = w

/-- R73, R74: the rows are disjoint, and the decoder, written from the formats, reads a word as the command of a row
exactly when `w & mask = match` for that row; a word that matches no row is illegal. -/
def Obligations.DecodeFollowsOpcodeMap : Prop :=
  opcodeRows.Pairwise (fun r q => ∀ w, r.isMatch w = true → q.isMatch w = false) ∧
  (∀ w i, decode w = .ok i → i.row ∈ opcodeRows ∧ i.row.isMatch w = true) ∧
  (∀ w r, r ∈ opcodeRows → r.isMatch w = true → ∃ i, decode w = .ok i ∧ i.row = r) ∧
  (∀ w, wordLegal w = false → ∃ x, decode w = .error x)

/-- R72: every operand is the unsigned value of its bits of the word; every value of every field occurs. -/
def Obligations.OperandFields : Prop :=
  (∀ (w : CmdWord) (p : Word), decode w = .ok (.buildP p) → p.toNat = w.toNat % 2 ^ 32) ∧
  (∀ (w : CmdWord) (n : Word), decode w = .ok (.setlen n) → n.toNat = w.toNat % 2 ^ 32) ∧
  (∀ (w : CmdWord) (b : Byte), decode w = .ok (.updb b) → b.toNat = w.toNat % 2 ^ 8) ∧
  (∀ (w : CmdWord) (i : Byte), decode w = .ok (.rdtab i) → i.toNat = w.toNat % 2 ^ 8) ∧
  (∀ (w : CmdWord) (off len : Word), decode w = .ok (.updr off len) →
    off.toNat = w.toNat / 2 ^ 32 % 2 ^ 32 ∧ len.toNat = w.toNat % 2 ^ 32) ∧
  (∀ i : Instr, ∃ w, decode w = .ok i)

/-- R75, R152: which words are illegal, by opcode and reserved bits; and what the block answers to one, in every
state, with nothing changed. -/
def Obligations.IllegalWords : Prop :=
  (∀ w : CmdWord, wordLegal w = false ↔
    (w.toNat / 2 ^ 64 = 0 ∨ 9 ≤ w.toNat / 2 ^ 64) ∨
    (w.toNat / 2 ^ 64 ∈ [1, 3, 6] ∧ w.toNat % 2 ^ 64 ≠ 0) ∨
    (w.toNat / 2 ^ 64 ∈ [2, 7] ∧ w.toNat / 2 ^ 32 % 2 ^ 32 ≠ 0) ∨
    (w.toNat / 2 ^ 64 ∈ [4, 8] ∧ w.toNat / 2 ^ 8 % 2 ^ 56 ≠ 0)) ∧
  wordLegal 0 = false ∧ wordLegal (BitVec.allOnes 72) = false ∧
  (Response.error .illegalCommand).word = 0x200000000#36 ∧
  (∀ (s : State) (w : CmdWord) (rest : List HostAction), s.hostActs = .issue w :: rest → wordLegal w = false →
    step s = .next { s with hostActs := rest, rsp := some (.error .illegalCommand) })

/-- R76, R156: the response word is the code and the data; the codes; the data of an error is 0. -/
def Obligations.ResponseWord : Prop :=
  (∀ r : Response, r.word.toNat = r.code.toNat * 2 ^ 32 + r.data.toNat) ∧
  (∀ d, (Response.ok d).code = 0x0#4 ∧ (Response.ok d).data = d) ∧
  (∀ e, (Response.error e).data = 0) ∧
  (Response.error .rangeError).code = 0x1#4 ∧
  (Response.error .illegalCommand).code = 0x2#4 ∧
  (Response.error .notConstructed).code = 0x3#4

/-- R79: BUILD is BUILD.D without an operand and BUILD.P with one; `BUILD 0xEDB88320` assembles to BUILD.P and has
the effect of BUILD.D. -/
def Obligations.BuildPseudo : Prop :=
  (AsmLine.build none).expand = some [.issue (encode .buildD)] ∧
  (∀ p, (AsmLine.build (some p)).expand = some [.issue (encode (.buildP p))]) ∧
  parseLine "BUILD 0xEDB88320".toList = some (.build (some 0xEDB88320#32)) ∧
  (∀ s, exec (.buildP 0xEDB88320#32) s = exec .buildD s)

/-- R80: UPDS is one UPDB per character, in order; run on a built block it folds the text. -/
def Obligations.UpdsPseudo : Prop :=
  (∀ text, (AsmLine.upds text).expand = some (text.map fun b => .issue (encode (.updb b)))) ∧
  parseLine "UPDS \"123456789\"".toList =
    some (.upds [0x31, 0x32, 0x33, 0x34, 0x35, 0x36, 0x37, 0x38, 0x39]) ∧
  (parseLine "UPDS \"\"".toList).bind AsmLine.expand = some [] ∧
  (∀ (s : State) (e : Engine) (text : List Byte) (rest : List HostAction),
    s.engine = some e → s.hostActs = updsActs text ++ rest →
    ∃ t, runs text.length s t ∧ t.hostActs = rest ∧
      t.engine = some { e with running := fold e.table e.running text } ∧
      t.buflen = s.buflen ∧ t.buf = s.buf)

/-- R81: `.buf a, bytes` places the bytes at `a`, `a + 1`, and so on, and changes no other byte and no register. -/
def Obligations.BufDirective : Prop :=
  ∀ (s : State) (a : Word) (m : List Byte) (acts rest : List HostAction),
    (AsmLine.dotBuf a m).expand = some acts → s.hostActs = acts ++ rest →
    ∃ t, runs m.length s t ∧ t.hostActs = rest ∧
      (∀ k (hk : k < m.length), t.buf.byteAt (a.toNat + k) = some m[k]) ∧
      (∀ x, x < a.toNat ∨ a.toNat + m.length ≤ x → t.buf.byteAt x = s.buf.byteAt x) ∧
      t.engine = s.engine ∧ t.buflen = s.buflen ∧ t.rsp = s.rsp

/-- R84: HASH on a built block, through the buffer or byte by byte, ends with the checksum of all its chunks in order;
where the chunks are split makes no difference; the empty source gives 0. The first clause is about the chunks the
buffer form expands for (each shorter than 2^32 bytes); the second, byte by byte, is about chunks of any length. -/
def Obligations.HashPseudo : Prop :=
  (∀ (s : State) (e : Engine) (chunks : List (List Byte)) (acts rest : List HostAction),
    s.engine = some e → TableOfPoly s → (AsmLine.hash chunks).expand = some acts → s.hostActs = acts ++ rest →
    ∃ t, runs acts.length s t ∧ t.hostActs = rest ∧ t.rsp = some (.ok (crc e.poly chunks.flatten))) ∧
  (∀ (s : State) (e : Engine) (chunks : List (List Byte)) (rest : List HostAction),
    s.engine = some e → TableOfPoly s → s.hostActs = hashBytesActs chunks ++ rest →
    ∃ t, runs (hashBytesActs chunks).length s t ∧ t.hostActs = rest ∧
      t.rsp = some (.ok (crc e.poly chunks.flatten))) ∧
  (∀ p, crc p [] = 0)

/-! ### The step: 00_scope.md, 10_state.md, 70_reset_and_hazards.md -/

/-- R12, R32: a step in which the host issues the word of a command is that command's meaning on the state with the
issue done; a word placed by `withFetchWord` is the next to run. -/
def Obligations.StepRunsDecoded : Prop :=
  (∀ (s : State) (w : CmdWord) (rest : List HostAction) (i : Instr),
    s.hostActs = .issue w :: rest → decode w = .ok i → i.wellFormed = true →
    step s = exec i { s with hostActs := rest }) ∧
  (∀ (s : State) (i : Instr), step (s.withFetchWord 72 (encode i).toNat) = exec i s)

/-- R12, R192: every step ends, and every word, legal or not, is answered. -/
def Obligations.CommandsAnswered : Prop :=
  (∀ s : State, ∃ t, step s = .next t) ∧
  (∀ (s : State) (w : CmdWord) (rest : List HostAction), s.hostActs = .issue w :: rest →
    ∃ t r, step s = .next t ∧ t.hostActs = rest ∧ t.rsp = some r)

/-- R174: between commands the block does nothing. -/
def Obligations.IdleHolds : Prop :=
  ∀ s : State, s.hostActs = [] → step s = .next s

/-- R53, R62, R195: a host write is seen at its address and nowhere else, and the block is not told. -/
def Obligations.HostWritesBuffer : Prop :=
  ∀ (s : State) (a : Word) (b : Byte) (rest : List HostAction), s.hostActs = .writeBuf a b :: rest →
    ∃ m : Memory, step s = .next { s with buf := m, hostActs := rest } ∧
      m.byteAt a.toNat = some b ∧ ∀ x, x ≠ a.toNat → m.byteAt x = s.buf.byteAt x

/-- R180: power-on reset, at any time, leaves the flags and `BUFLEN` 0 and the data registers and `hash_o` without a
value; the state after reset is such a state. -/
def Obligations.PowerOnResetState : Prop :=
  (∀ (s : State) (rest : List HostAction), s.hostActs = .powerOn :: rest →
    ∃ t, step s = .next t ∧ t.built = false ∧ t.rv = false ∧ t.buflen = 0 ∧ t.poly = none ∧ t.table = none ∧
      t.running = none ∧ t.result = none ∧ t.outputs = ⟨false, false, none⟩) ∧
  State.reset.built = false ∧ State.reset.rv = false ∧ State.reset.buflen = 0 ∧ State.reset.poly = none ∧
  State.reset.table = none ∧ State.reset.running = none ∧ State.reset.result = none ∧
  State.reset.outputs = ⟨false, false, none⟩

/-- R183: a power-on reset placed after the command it cuts short leaves the state of one placed before it, and no
answer; only the model's own count of free bytes can differ. That the buffer, the host's plans and that count outlive a
power-on reset is the model's choice (log entry 5). -/
def Obligations.PowerOnDuringCommand : Prop :=
  (∀ (i : Instr) (s t : State), exec i s = .next t →
    { t.powerOnReset with draws := s.draws } = s.powerOnReset ∧ t.powerOnReset.rsp = none) ∧
  (∀ (s : State) (rest : List HostAction), s.hostActs = .powerOn :: rest →
    ∃ t, step s = .next t ∧ t.rsp = none ∧ t.buf = s.buf ∧ t.hostActs = rest ∧ t.draws = s.draws)

/-! ### The table builder: 40_table_builder.md -/

/-- R90, R91, R92: one iteration bit by bit; an entry is eight iterations from its index; entry `i` of the table. -/
def Obligations.TableContents : Prop :=
  (∀ (p v : Word) (k : Nat), k < 32 →
    (iter1 p v).getLsbD k = ((decide (k < 31) && v.getLsbD (k + 1)) ^^ (v[0] && p.getLsbD k))) ∧
  (∀ (p : Word) (i : Byte), tabEntry p i = (iter1 p)^[8] (i.setWidth 32)) ∧
  (∀ (p : Word) (i : Byte), (buildTable p)[i.toNat]'i.isLt = tabEntry p i)

/-- The facts of rule R94, which the spec marks as derived from R90 and R91: entries 0, 128 and the powers of two,
linearity in the index, no linearity in the polynomial, the zero polynomial, three entries of the default table. -/
def Obligations.TableFacts : Prop :=
  (∀ p, tabEntry p 0 = 0) ∧ (∀ p, tabEntry p 128 = p) ∧
  (∀ (s : State) (e : Engine), s.engine = some e → TableOfPoly s → tableAt e.table 128 = e.poly) ∧
  (∀ (p : Word) (k : Nat), k < 8 → tabEntry p (BitVec.ofNat 8 (2 ^ k)) = (iter1 p)^[7 - k] p) ∧
  (∀ (p : Word) (i j : Byte), tabEntry p (i ^^^ j) = tabEntry p i ^^^ tabEntry p j) ∧
  tabEntry 0x00000001#32 255 = 0x00000000#32 ∧ tabEntry 0x80000000#32 255 = 0xFF000000#32 ∧
  tabEntry 0x80000001#32 255 = 0x55000000#32 ∧ (∀ i, tabEntry 0 i = 0) ∧
  tabEntry 0xEDB88320#32 1 = 0x77073096#32 ∧ tabEntry 0xEDB88320#32 2 = 0xEE0E612C#32 ∧
  tabEntry 0xEDB88320#32 255 = 0x2D02EF8D#32

/-- R96: BUILD.D. -/
def Obligations.BuildDefault : Prop :=
  encode .buildD = 0x010000000000000000#72 ∧
  (∀ w : CmdWord, opcodeOf w = 0x01#8 → w ≠ 0x010000000000000000#72 → decode w = .error .reservedBits) ∧
  (∀ s : State, exec .buildD s = .next
    { s with engine := some ⟨0xEDB88320#32, buildTable 0xEDB88320#32, 0xFFFFFFFF#32, none⟩, rsp := some (.ok 0) }) ∧
  (∀ s t : State, exec .buildD s = .next t → t.built = true ∧ t.rv = false ∧ exec .buildD t = .next t) ∧
  (∀ s : State, exec .buildD s = exec (.buildP 0xEDB88320#32) s)

/-- R97: BUILD.P; with the polynomial 0 every update is a shift by 8. -/
def Obligations.BuildCustom : Prop :=
  (∀ p : Word, encode (.buildP p) = 0x0200000000#40 ++ p) ∧
  (∀ w : CmdWord, opcodeOf w = 0x02#8 → fieldA w ≠ 0 → decode w = .error .reservedBits) ∧
  (∀ (p : Word) (s : State), exec (.buildP p) s = .next
    { s with engine := some ⟨p, buildTable p, 0xFFFFFFFF#32, none⟩, rsp := some (.ok 0) }) ∧
  (∀ (p : Word) (s t : State), exec (.buildP p) s = .next t → t.built = true ∧ t.rv = false) ∧
  (∀ (s : Word) (b : Byte), (∀ i, tableAt (buildTable 0) i = 0) ∧ foldByte (buildTable 0) s b = s >>> 8)

/-- R98: RDTAB reads one entry and changes nothing; entry 0 is 0 and entry 128 is the polynomial of the table. -/
def Obligations.ReadTable : Prop :=
  (∀ i : Byte, encode (.rdtab i) = 0x0800000000000000#64 ++ i) ∧
  (∀ w : CmdWord, opcodeOf w = 0x08#8 → (fieldA w ≠ 0 ∨ fieldBHigh w ≠ 0) → decode w = .error .reservedBits) ∧
  (∀ (s : State) (i : Byte), s.built = false →
    exec (.rdtab i) s = .next { s with rsp := some (.error .notConstructed) }) ∧
  (∀ (s : State) (e : Engine) (i : Byte), s.engine = some e →
    exec (.rdtab i) s = .next { s with rsp := some (.ok (e.table[i.toNat]'i.isLt)) }) ∧
  (∀ (s : State) (e : Engine), s.engine = some e → TableOfPoly s →
    exec (.rdtab 0) s = .next { s with rsp := some (.ok 0) } ∧
    exec (.rdtab 128) s = .next { s with rsp := some (.ok e.poly) })

/-- R92, R97, R98: what a host reads back after a construction is the eight-fold iteration, entry by entry. -/
def Obligations.TableReadBack : Prop :=
  ∀ (s : State) (p : Word) (i : Byte),
    ∃ t, exec (.buildP p) s = .next t ∧
      exec (.rdtab i) t = .next { t with rsp := some (.ok ((iter1 p)^[8] (i.setWidth 32))) }

/-! ### The state updater: 41_state_update.md -/

/-- Rule R112, marked by the spec as derived from R111: the fold of a concatenation; UPDR of `k1 + k2` bytes is UPDR
of `k1` and then of `k2`; UPDR is one UPDB per byte, in order. Over buffer bytes the host never wrote, the second clause also
rests on the model's draw counter (DESIGN CHOICE, log entry 3): both sides take the same draws in the same order. -/
def Obligations.ChunkInvariance : Prop :=
  (∀ (t : Table) (s : Word) (x y : List Byte), fold t s (x ++ y) = fold t (fold t s x) y) ∧
  (∀ (s : State) (off k1 k2 : Word), off.toNat + k1.toNat + k2.toNat ≤ s.buflen.toNat →
    exec (.updr off (k1 + k2)) s = execAll [.updr off k1, .updr (off + k1) k2] s) ∧
  (∀ (s : State) (e : Engine) (off len : Word), s.engine = some e → inRange off len s.buflen = true →
    ∃ t u, exec (.updr off len) s = .next t ∧
      execAll ((s.subRange off len).1.map Instr.updb) s = .next u ∧ u.engine = t.engine)

/-- Rule R113, marked by the spec as derived from R90, R91, R94 and R110: the table method is the bit-serial one. -/
def Obligations.BitSerial : Prop :=
  ∀ (p s : Word) (b : Byte), foldByte (buildTable p) s b = (iter1 p)^[8] (s ^^^ b.setWidth 32)

/-- Rule R114, marked by the spec as derived from R94 and R110: facts about one step that hold for every polynomial. -/
def Obligations.StepFacts : Prop :=
  (∀ p, foldByte (buildTable p) 0xFFFFFFFF#32 0xFF#8 = 0x00FFFFFF#32) ∧
  (∀ p, fold (buildTable p) 0xFFFFFFFF#32 [0xFF#8, 0xFF#8, 0xFF#8, 0xFF#8] = 0) ∧
  (∀ p, crc p [0xFF#8, 0xFF#8, 0xFF#8, 0xFF#8] = 0xFFFFFFFF#32) ∧
  (∀ p, foldByte (buildTable p) 0 0 = 0) ∧
  (∀ s b, foldByte (buildTable 0) s b = s >>> 8)

/-- R116: RESET. -/
def Obligations.ResetCommand : Prop :=
  encode .reset = 0x030000000000000000#72 ∧
  (∀ w : CmdWord, opcodeOf w = 0x03#8 → w ≠ 0x030000000000000000#72 → decode w = .error .reservedBits) ∧
  (∀ s : State, s.built = false → exec .reset s = .next { s with rsp := some (.error .notConstructed) }) ∧
  (∀ (s : State) (e : Engine), s.engine = some e → exec .reset s = .next
    { s with engine := some { e with running := 0xFFFFFFFF#32, result := none }, rsp := some (.ok 0) }) ∧
  (∀ (s t : State), exec .reset s = .next t → t.rv = false ∧ exec .reset t = .next t) ∧
  (∀ (s t : State) (p : Word), exec (.buildP p) s = .next t → exec .reset t = .next t)

/-- Rule R117, marked by the spec as derived from R96, R97 and R116: after RESET the past is forgotten. Two built blocks
with the same polynomial and `BUFLEN` hold the same engine after RESET, and the same commands over the same buffer then
keep them equal and give equal answers (the same count of free bytes, so that the same ones are drawn). -/
def Obligations.ResetIndependence : Prop :=
  ∀ (s₁ s₂ : State) (e₁ e₂ : Engine), s₁.engine = some e₁ → s₂.engine = some e₂ → TableOfPoly s₁ → TableOfPoly s₂ →
    e₁.poly = e₂.poly → s₁.buflen = s₂.buflen → s₁.buf = s₂.buf → s₁.draws = s₂.draws →
    ∃ t₁ t₂, exec .reset s₁ = .next t₁ ∧ exec .reset s₂ = .next t₂ ∧ t₁.engine = t₂.engine ∧
      ∀ cs, ∃ u₁ u₂, execAll cs t₁ = .next u₁ ∧ execAll cs t₂ = .next u₂ ∧
        u₁.engine = u₂.engine ∧ u₁.buflen = u₂.buflen ∧ u₁.rsp = u₂.rsp ∧ u₁.outputs = u₂.outputs

/-- R118: SETLEN, in every state. -/
def Obligations.SetLength : Prop :=
  (∀ n : Word, encode (.setlen n) = 0x0700000000#40 ++ n) ∧
  (∀ w : CmdWord, opcodeOf w = 0x07#8 → fieldA w ≠ 0 → decode w = .error .reservedBits) ∧
  (∀ (s : State) (n : Word), exec (.setlen n) s = .next { s with buflen := n, rsp := some (.ok 0) }) ∧
  (∀ (s t : State) (off len : Word), exec (.setlen 0) s = .next t → t.built = true → 0 < off.toNat + len.toNat →
    exec (.updr off len) t = .next { t with rsp := some (.error .rangeError) })

/-- R110, R120: UPDB; the index and the shift both use the old state. -/
def Obligations.UpdateByte : Prop :=
  (∀ b : Byte, encode (.updb b) = 0x0400000000000000#64 ++ b) ∧
  (∀ w : CmdWord, opcodeOf w = 0x04#8 → (fieldA w ≠ 0 ∨ fieldBHigh w ≠ 0) → decode w = .error .reservedBits) ∧
  (∀ (s : State) (b : Byte), s.built = false →
    exec (.updb b) s = .next { s with rsp := some (.error .notConstructed) }) ∧
  (∀ (s : State) (e : Engine) (b : Byte), s.engine = some e → exec (.updb b) s = .next
    { s with
      engine := some { e with
        running := (e.running >>> 8) ^^^ e.table[(b ^^^ e.running.setWidth 8).toNat]'(b ^^^ e.running.setWidth 8).isLt },
      rsp := some (.ok 0) })

/-- R123: UPDR; its two errors in order; and, where the host has done its duty of R193, the fold of the bytes of the
sub-range in ascending order. `UpdateRangeAnyBuffer` says what it does where the host has not. -/
def Obligations.UpdateRange : Prop :=
  (∀ off len : Word, encode (.updr off len) = 0x05#8 ++ off ++ len) ∧
  (∀ w : CmdWord, opcodeOf w = 0x05#8 → ∃ off len, decode w = .ok (.updr off len)) ∧
  (∀ (s : State) (off len : Word), s.built = false →
    exec (.updr off len) s = .next { s with rsp := some (.error .notConstructed) }) ∧
  (∀ (s : State) (e : Engine) (off len : Word), s.engine = some e → s.buflen.toNat < off.toNat + len.toNat →
    exec (.updr off len) s = .next { s with rsp := some (.error .rangeError) }) ∧
  (∀ (s : State) (e : Engine) (off len : Word), s.engine = some e → off.toNat + len.toNat ≤ s.buflen.toNat →
    SubRangeWritten s off len →
    ∃ m : List Byte, m.length = len.toNat ∧ (∀ k, k < len.toNat → m[k]? = s.buf.byteAt (off.toNat + k)) ∧
      exec (.updr off len) s = .next
        { s with engine := some { e with running := m.foldl (foldByte e.table) e.running }, rsp := some (.ok 0) })

/-- UPDR runs whatever the host has written: it folds the bytes the host wrote as it wrote them and a free byte at each
other address. The free bytes and their count `draws` are the model's choice for 93 V3 (log entry 3). -/
def Obligations.UpdateRangeAnyBuffer : Prop :=
  ∀ (s : State) (e : Engine) (off len : Word), s.engine = some e → off.toNat + len.toNat ≤ s.buflen.toNat →
    ∃ (m : List Byte) (d : Nat), m.length = len.toNat ∧
      (∀ k b, k < len.toNat → s.buf.byteAt (off.toNat + k) = some b → m[k]? = some b) ∧
      s.draws ≤ d ∧ d ≤ s.draws + len.toNat ∧
      exec (.updr off len) s = .next
        { s with engine := some { e with running := m.foldl (foldByte e.table) e.running },
                 rsp := some (.ok 0), draws := d }

/-- R53, R193: where the host has written every byte of the sub-range, UPDR's effect is a function of those bytes: no
free value enters, whatever the count of draws and whatever else the buffer holds. -/
def Obligations.WrittenBytesDecide : Prop :=
  ∀ (s : State) (m : Memory) (d : Nat) (off len : Word), SubRangeWritten s off len →
    (∀ k, k < len.toNat → m.byteAt (off.toNat + k) = s.buf.byteAt (off.toNat + k)) →
    ∀ t, exec (.updr off len) s = .next t →
      exec (.updr off len) { s with buf := m, draws := d } = .next { t with buf := m, draws := d }

/-- R124: zero length is a no-op up to the end, inclusive, and a RangeError beyond it; NotConstructed comes first. -/
def Obligations.ZeroLengthUpdate : Prop :=
  (∀ (s : State) (off : Word), s.built = true → off.toNat ≤ s.buflen.toNat →
    exec (.updr off 0) s = .next { s with rsp := some (.ok 0) }) ∧
  (∀ (s : State) (off : Word), s.built = true → s.buflen.toNat < off.toNat →
    exec (.updr off 0) s = .next { s with rsp := some (.error .rangeError) }) ∧
  (∀ (s : State) (off : Word), s.built = false →
    exec (.updr off 0) s = .next { s with rsp := some (.error .notConstructed) })

/-- R125: the sum of the range check does not wrap; the equivalent 32-bit test; every address read fits in 32 bits. -/
def Obligations.RangeCheckArithmetic : Prop :=
  (∀ off len n : Word, inRange off len n = true ↔ off.toNat + len.toNat ≤ n.toNat) ∧
  (∀ off len n : Word, inRange off len n = true ↔ off ≤ n ∧ len ≤ n - off) ∧
  (∀ (off len n : Word) (k : Nat), inRange off len n = true → k < len.toNat →
    off.toNat + k ≤ n.toNat - 1 ∧ off.toNat + k ≤ 2 ^ 32 - 2) ∧
  inRange 0xFFFFFFFF#32 2 16 = false

/-! ### The finalizer: 42_finalize.md -/

/-- R140: the complement, bit by bit; no bit moves. -/
def Obligations.Complement : Prop :=
  (∀ (s : Word) (k : Nat), k < 32 → (fin s).getLsbD k = !s.getLsbD k) ∧
  (∀ s : Word, fin s = s ^^^ 0xFFFFFFFF#32) ∧ (∀ s : Word, (fin s).toNat = 0xFFFFFFFF - s.toNat)

/-- Rule R141, marked by the spec as derived from R140: the complement is its own inverse, so a host that has a FINAL
response knows `STATE`. -/
def Obligations.ComplementInverse : Prop :=
  (∀ s : Word, fin (fin s) = s) ∧ fin 0xFFFFFFFF#32 = 0 ∧ fin 0 = 0xFFFFFFFF#32 ∧
  (∀ (s t : State) (v d : Word), s.running = some v → exec .final s = .next t → t.rsp = some (.ok d) → v = fin d)

/-- R142: FINAL publishes and returns the complement of `STATE` and leaves `STATE`. -/
def Obligations.FinalCommand : Prop :=
  encode .final = 0x060000000000000000#72 ∧
  (∀ w : CmdWord, opcodeOf w = 0x06#8 → w ≠ 0x060000000000000000#72 → decode w = .error .reservedBits) ∧
  (∀ s : State, s.built = false → exec .final s = .next { s with rsp := some (.error .notConstructed) }) ∧
  (∀ (s : State) (e : Engine), s.engine = some e → exec .final s = .next
    { s with engine := some { e with result := some (e.running ^^^ 0xFFFFFFFF#32) },
             rsp := some (.ok (e.running ^^^ 0xFFFFFFFF#32)) }) ∧
  (∀ (s t : State) (v : Word), s.running = some v → exec .final s = .next t →
    t.running = some v ∧ t.outputs = ⟨true, true, some (v ^^^ 0xFFFFFFFF#32)⟩)

/-- R143: a FINAL with no byte folded and no discard since the last one returns the published value again and leaves
the state; two in a row are one. -/
def Obligations.FinalIdempotent : Prop :=
  (∀ s t : State, exec .final s = .next t → exec .final t = .next t) ∧
  (∀ (s : State) (h : History) (r : Word), HistoryHolds s h → s.result = some r → h.sinceFinal = [] →
    exec .final s = .next { s with rsp := some (.ok r) })

/-- R144: FINAL on no bytes returns 0, under every polynomial, after RESET and after construction, however many
commands that fold nothing came between. -/
def Obligations.EmptyInput : Prop :=
  (∀ (s t : State), s.built = true → exec .reset s = .next t →
    ∃ u, exec .final t = .next u ∧ u.rsp = some (.ok 0)) ∧
  (∀ (s t : State) (p : Word), exec (.buildP p) s = .next t → ∃ u, exec .final t = .next u ∧ u.rsp = some (.ok 0)) ∧
  (∀ (s t : State), exec .buildD s = .next t → ∃ u, exec .final t = .next u ∧ u.rsp = some (.ok 0)) ∧
  (∀ (s : State) (h : History), HistoryHolds s h → s.built = true → h.folded = [] →
    ∃ u, exec .final s = .next u ∧ u.rsp = some (.ok 0))

/-- R145: updates after FINAL fold into the same `STATE` and leave `RESULT`, `RV` and `hash_o`; the next FINAL returns
the complement of the state with those bytes folded in as well. -/
def Obligations.UpdateAfterFinal : Prop :=
  (∀ (s : State) (e : Engine) (b : Byte), s.engine = some e →
    ∃ t u v, exec .final s = .next t ∧ exec (.updb b) t = .next u ∧ exec .final u = .next v ∧
      u.result = some (fin e.running) ∧ u.outputs = t.outputs ∧
      u.running = some (fold e.table e.running [b]) ∧ v.rsp = some (.ok (fin (fold e.table e.running [b])))) ∧
  (∀ (s : State) (e : Engine) (off len : Word), s.engine = some e → inRange off len s.buflen = true →
    ∃ t u v, exec .final s = .next t ∧ exec (.updr off len) t = .next u ∧ exec .final u = .next v ∧
      u.result = some (fin e.running) ∧ u.outputs = t.outputs ∧
      u.running = some (fold e.table e.running (s.subRange off len).1) ∧
      v.rsp = some (.ok (fin (fold e.table e.running (s.subRange off len).1))))

/-- R17, R142, R145 and the Result of DOC00 §3: FINAL returns the checksum of exactly the bytes folded since the last
RESET or construction, under the polynomial the table was built from. -/
def Obligations.PublishedChecksum : Prop :=
  ∀ (s : State) (e : Engine) (h : History), HistoryHolds s h → s.engine = some e →
    ∃ t, exec .final s = .next t ∧ t.rsp = some (.ok (crc e.poly h.folded)) ∧
      t.outputs = ⟨true, true, some (crc e.poly h.folded)⟩

/-! ### Errors: 60_exceptions.md -/

/-- R151: RangeError is answered exactly by an UPDR on a built block whose sub-range ends beyond `BUFLEN`, and then
nothing else has changed and no byte was read. -/
def Obligations.RangeErrorExactly : Prop :=
  (Response.error .rangeError).word = 0x100000000#36 ∧
  ∀ (i : Instr) (s t : State), exec i s = .next t →
    (t.rsp = some (.error .rangeError) ↔
      s.built = true ∧ ∃ off len, i = .updr off len ∧ s.buflen.toNat < off.toNat + len.toNat) ∧
    (t.rsp = some (.error .rangeError) → t = { s with rsp := some (.error .rangeError) })

/-- R153: NotConstructed is answered exactly by RESET, UPDB, UPDR, FINAL and RDTAB while `BUILT` = 0, and changes
nothing; once `BUILT` = 1 no command clears it. -/
def Obligations.NotConstructedExactly : Prop :=
  (Response.error .notConstructed).word = 0x300000000#36 ∧
  (∀ (i : Instr) (s t : State), exec i s = .next t →
    (t.rsp = some (.error .notConstructed) ↔
      s.built = false ∧ (i = .reset ∨ (∃ b, i = .updb b) ∨ (∃ off len, i = .updr off len) ∨ i = .final ∨
        ∃ k, i = .rdtab k)) ∧
    (t.rsp = some (.error .notConstructed) → t = { s with rsp := some (.error .notConstructed) })) ∧
  (∀ (i : Instr) (s t : State), exec i s = .next t → s.built = true → t.built = true)

/-- R158: an error changes no state element and no output, its data is 0, and no later command sees it. -/
def Obligations.ErrorsChangeNothing : Prop :=
  ∀ (i : Instr) (s t : State) (x : Err), exec i s = .next t → t.rsp = some (.error x) →
    t = { s with rsp := some (.error x) } ∧ t.outputs = s.outputs ∧ (Response.error x).data = 0 ∧
    ∀ j, exec j t = exec j s

/-- R159: IllegalCommand before NotConstructed before RangeError, on the word the host issues. -/
def Obligations.ErrorPriority : Prop :=
  ∀ (s : State) (w : CmdWord) (rest : List HostAction), s.hostActs = .issue w :: rest →
    (wordLegal w = false →
      step s = .next { s with hostActs := rest, rsp := some (.error .illegalCommand) }) ∧
    (∀ off len, decode w = .ok (.updr off len) → s.built = false →
      step s = .next { s with hostActs := rest, rsp := some (.error .notConstructed) }) ∧
    (∀ off len, decode w = .ok (.updr off len) → s.built = true → s.buflen.toNat < off.toNat + len.toNat →
      step s = .next { s with hostActs := rest, rsp := some (.error .rangeError) })

/-! ### Registers, flags, frames and invariants: 10_state.md, 20_memory.md -/

/-- R28, with R27 and R33: what each command and power-on reset do to the flags, and the outputs that show them. -/
def Obligations.FlagRules : Prop :=
  (∀ (i : Instr) (s t : State), exec i s = .next t →
    t.built = (s.built || isConstruct i) ∧
    (t.built = true ↔ t.poly.isSome ∧ t.table.isSome ∧ t.running.isSome) ∧
    t.rv = rvAfter s i ∧
    (∀ x, t.rsp = some (.error x) → t.rv = s.rv ∧ t.built = s.built) ∧
    (t.rv = true ↔ t.result.isSome) ∧ t.outputs = ⟨t.built, t.rv, t.result⟩) ∧
  (∀ s : State, s.powerOnReset.built = false ∧ s.powerOnReset.rv = false)

/-- R26: `BUFLEN` is written by SETLEN and by power-on reset only, and read by UPDR only. -/
def Obligations.BuflenRules : Prop :=
  (∀ (i : Instr) (s t : State), exec i s = .next t → t.buflen = buflenAfter s i) ∧
  (∀ s : State, s.powerOnReset.buflen = 0) ∧
  (∀ (i : Instr) (s t : State) (n : Word), (∀ off len, i ≠ .updr off len) → (∀ k, i ≠ .setlen k) →
    exec i s = .next t → exec i { s with buflen := n } = .next { t with buflen := n })

/-- What BUILD.D, BUILD.P and RDTAB leave: `BUFLEN`, every byte of the buffer, the host's plans and the draws; RDTAB
every register as well. -/
def Obligations.FrameBuilder : Prop :=
  (∀ (s t : State) (i : Instr), (i = .buildD ∨ (∃ p, i = .buildP p) ∨ ∃ k, i = .rdtab k) → exec i s = .next t →
    t.buflen = s.buflen ∧ (∀ a, t.buf.byteAt a = s.buf.byteAt a) ∧ t.hostActs = s.hostActs ∧ t.draws = s.draws) ∧
  (∀ (s t : State) (k : Byte), exec (.rdtab k) s = .next t →
    t.poly = s.poly ∧ t.table = s.table ∧ t.running = s.running ∧ t.result = s.result ∧
    t.built = s.built ∧ t.rv = s.rv)

/-- What UPDB and UPDR leave: the polynomial, the table, the result, both flags, `BUFLEN`, every byte of the buffer
and the host's plans; UPDB the draws as well, and UPDR where the host wrote the sub-range. -/
def Obligations.FrameUpdates : Prop :=
  (∀ (s t : State) (i : Instr), ((∃ b, i = .updb b) ∨ ∃ off len, i = .updr off len) → exec i s = .next t →
    t.poly = s.poly ∧ t.table = s.table ∧ t.result = s.result ∧ t.built = s.built ∧ t.rv = s.rv ∧
    t.buflen = s.buflen ∧ (∀ a, t.buf.byteAt a = s.buf.byteAt a) ∧ t.hostActs = s.hostActs) ∧
  (∀ (s t : State) (b : Byte), exec (.updb b) s = .next t → t.draws = s.draws) ∧
  (∀ (s t : State) (off len : Word), exec (.updr off len) s = .next t → SubRangeWritten s off len → t.draws = s.draws)

/-- What RESET, SETLEN and FINAL leave: the polynomial, the table, `BUILT`, every byte of the buffer, the host's plans
and the draws; RESET and FINAL `BUFLEN`; SETLEN every other register; FINAL `STATE`. -/
def Obligations.FrameControl : Prop :=
  (∀ (s t : State) (i : Instr), (i = .reset ∨ i = .final ∨ ∃ n, i = .setlen n) → exec i s = .next t →
    t.poly = s.poly ∧ t.table = s.table ∧ t.built = s.built ∧
    (∀ a, t.buf.byteAt a = s.buf.byteAt a) ∧ t.hostActs = s.hostActs ∧ t.draws = s.draws) ∧
  (∀ s t : State, exec .reset s = .next t → t.buflen = s.buflen) ∧
  (∀ s t : State, exec .final s = .next t → t.buflen = s.buflen ∧ t.running = s.running) ∧
  (∀ (s t : State) (n : Word), exec (.setlen n) s = .next t →
    t.running = s.running ∧ t.result = s.result ∧ t.rv = s.rv)

/-- R23: two blocks that differ only in `STATE` give equal answers and equal outputs to every command but FINAL, whose
answer is the complement of `STATE`. -/
def Obligations.StateNotObservable : Prop :=
  (∀ (i : Instr) (s : State) (e : Engine) (v : Word), i ≠ .final →
    ∃ t u, exec i { s with engine := some e } = .next t ∧
      exec i { s with engine := some { e with running := v } } = .next u ∧
      t.rsp = u.rsp ∧ t.outputs = u.outputs ∧ t.buflen = u.buflen) ∧
  (∀ (s : State) (v : Word), s.running = some v →
    ∃ t, exec .final s = .next t ∧ t.rsp = some (.ok (fin v)) ∧ t.result = some (fin v))

/-- Rule R37, marked by the spec as derived: every step keeps (a) to (d) of the state and its past. -/
def Obligations.HistoryKept : Prop :=
  ∀ (s t : State) (h : History), HistoryHolds s h → step s = .next t → HistoryHolds t (h.step s)

/-- Rule R37: (a) to (d) hold at reset, where nothing has been folded. -/
def Obligations.HistoryAtReset : Prop :=
  HistoryHolds State.reset History.start

/-- R51: every step keeps the buffer's canonical form; it holds at reset by `BufCanonicalAtReset`. -/
def Obligations.BufCanonicalKept : Prop :=
  ∀ s t : State, BufCanonical s → step s = .next t → BufCanonical t

/-- The reset state's buffer is canonical. -/
def Obligations.BufCanonicalAtReset : Prop :=
  BufCanonical State.reset

/-- R185, marked by the spec as derived: from power-on reset, what answers what until the host has constructed, and
every UPDR but `UPDR 0, 0` is a RangeError until it has told a length. -/
def Obligations.BootOrder : Prop :=
  (∀ (s : State) (i : Instr), exec i s.powerOnReset =
      .next { s.powerOnReset with rsp := some (.error .notConstructed) } ↔
    i = .reset ∨ (∃ b, i = .updb b) ∨ (∃ off len, i = .updr off len) ∨ i = .final ∨ ∃ k, i = .rdtab k) ∧
  (∀ (s t : State) (p off len : Word), exec (.buildP p) s.powerOnReset = .next t → (off, len) ≠ (0, 0) →
    exec (.updr off len) t = .next { t with rsp := some (.error .rangeError) }) ∧
  (∀ (s t : State) (p : Word), exec (.buildP p) s.powerOnReset = .next t → t.running = some 0xFFFFFFFF#32)
end

