-- ==== Sys2Proof/Laws/PerInstr.lean ====
section
/-! SUPPORT. A fact about every command as syntax: the word the encoder gives it matches its row of the opcode map
(30_encoding.md R73). -/

namespace Sys2Proof.Laws

/-- The encoder's word carries the row's fixed bits, whatever the operands. -/
def RowMatch.Statement (i : Instr) : Prop := i.row ∈ opcodeRows ∧ i.row.isMatch (encode i) = true

/-- The fixed bits of a packed word are the opcode's and those of the two fields. -/
theorem packWord_and (o mo : Byte) (a b ma mb : Word) :
    packWord o a b &&& packWord mo ma mb = packWord (o &&& mo) (a &&& ma) (b &&& mb) := by
  apply BitVec.eq_of_getLsbD_eq
  intro i hi
  simp only [packWord, BitVec.getLsbD_and, BitVec.getLsbD_append]
  split <;> (try split) <;> simp

/-- A byte widened to a field has no bit above the byte. -/
theorem setWidth_and_high (b : Byte) : b.setWidth 32 &&& 0xFFFFFF00#32 = 0 := by
  have h : ∀ b : Byte, b.setWidth 32 &&& 0xFFFFFF00#32 = 0 := by decide +kernel
  exact h b

theorem RowMatch.buildD : RowMatch.Statement .buildD := by unfold RowMatch.Statement; decide

theorem RowMatch.buildP (p : Word) : RowMatch.Statement (.buildP p) := by
  refine ⟨by simp [Instr.row, opcodeRows], ?_⟩
  have := packWord_and 0x02#8 0xFF#8 0#32 p 0xFFFFFFFF#32 0#32
  simpa [OpcodeRow.isMatch, Instr.row, encode, packWord] using this

theorem RowMatch.reset : RowMatch.Statement .reset := by unfold RowMatch.Statement; decide

theorem RowMatch.updb (b : Byte) : RowMatch.Statement (.updb b) := by
  refine ⟨by simp [Instr.row, opcodeRows], ?_⟩
  have := packWord_and 0x04#8 0xFF#8 0#32 (b.setWidth 32) 0xFFFFFFFF#32 0xFFFFFF00#32
  rw [setWidth_and_high] at this
  simpa [OpcodeRow.isMatch, Instr.row, encode, packWord] using this

theorem RowMatch.updr (offset length : Word) : RowMatch.Statement (.updr offset length) := by
  refine ⟨by simp [Instr.row, opcodeRows], ?_⟩
  have := packWord_and 0x05#8 0xFF#8 offset length 0#32 0#32
  simpa [OpcodeRow.isMatch, Instr.row, encode, packWord] using this

theorem RowMatch.final : RowMatch.Statement .final := by unfold RowMatch.Statement; decide

theorem RowMatch.setlen (n : Word) : RowMatch.Statement (.setlen n) := by
  refine ⟨by simp [Instr.row, opcodeRows], ?_⟩
  have := packWord_and 0x07#8 0xFF#8 0#32 n 0xFFFFFFFF#32 0#32
  simpa [OpcodeRow.isMatch, Instr.row, encode, packWord] using this

theorem RowMatch.rdtab (i : Byte) : RowMatch.Statement (.rdtab i) := by
  refine ⟨by simp [Instr.row, opcodeRows], ?_⟩
  have := packWord_and 0x08#8 0xFF#8 0#32 (i.setWidth 32) 0xFFFFFFFF#32 0xFFFFFF00#32
  rw [setWidth_and_high] at this
  simpa [OpcodeRow.isMatch, Instr.row, encode, packWord] using this

end Sys2Proof.Laws
end

