-- ==== Sys2Proof/Laws/Encoding.lean ====
section
/-! SUPPORT. The command word as a number: what each field of R70 and R71 is of it, and what the packed word's fields
are. -/

namespace Sys2Proof.Laws

theorem packWord_toNat (o : Byte) (a b : Word) :
    (packWord o a b).toNat = o.toNat * 2 ^ 64 + a.toNat * 2 ^ 32 + b.toNat := by
  simp only [packWord, BitVec.toNat_append]
  rw [← Nat.shiftLeft_add_eq_or_of_lt b.isLt, ← Nat.shiftLeft_add_eq_or_of_lt a.isLt]
  simp only [Nat.shiftLeft_eq]
  ring

theorem opcodeOf_toNat (w : CmdWord) : (opcodeOf w).toNat = w.toNat / 2 ^ 64 := by
  have := w.isLt
  simp [opcodeOf, BitVec.extractLsb'_toNat, Nat.shiftRight_eq_div_pow]
  omega

theorem fieldA_toNat (w : CmdWord) : (fieldA w).toNat = w.toNat / 2 ^ 32 % 2 ^ 32 := by
  simp [fieldA, BitVec.extractLsb'_toNat, Nat.shiftRight_eq_div_pow]

theorem fieldB_toNat (w : CmdWord) : (fieldB w).toNat = w.toNat % 2 ^ 32 := by
  simp [fieldB, BitVec.extractLsb'_toNat, Nat.shiftRight_eq_div_pow]

theorem imm8_toNat (w : CmdWord) : (imm8 w).toNat = w.toNat % 2 ^ 8 := by
  simp [imm8, BitVec.extractLsb'_toNat, Nat.shiftRight_eq_div_pow]

theorem fieldBHigh_toNat (w : CmdWord) : (fieldBHigh w).toNat = w.toNat / 2 ^ 8 % 2 ^ 24 := by
  simp [fieldBHigh, BitVec.extractLsb'_toNat, Nat.shiftRight_eq_div_pow]

section
variable (o : Byte) (a b : Word)

@[simp] theorem opcodeOf_packWord : opcodeOf (packWord o a b) = o := by
  apply BitVec.eq_of_toNat_eq
  rw [opcodeOf_toNat, packWord_toNat]
  have := a.isLt; have := b.isLt
  omega

@[simp] theorem fieldA_packWord : fieldA (packWord o a b) = a := by
  apply BitVec.eq_of_toNat_eq
  rw [fieldA_toNat, packWord_toNat]
  have := a.isLt; have := b.isLt
  omega

@[simp] theorem fieldB_packWord : fieldB (packWord o a b) = b := by
  apply BitVec.eq_of_toNat_eq
  rw [fieldB_toNat, packWord_toNat]
  have := b.isLt
  omega

@[simp] theorem imm8_packWord (c : Byte) : imm8 (packWord o a (c.setWidth 32)) = c := by
  apply BitVec.eq_of_toNat_eq
  rw [imm8_toNat, packWord_toNat]
  have := c.isLt
  simp [BitVec.toNat_setWidth]
  omega

@[simp] theorem fieldBHigh_packWord (c : Byte) : fieldBHigh (packWord o a (c.setWidth 32)) = 0 := by
  apply BitVec.eq_of_toNat_eq
  rw [fieldBHigh_toNat, packWord_toNat]
  have := c.isLt
  simp [BitVec.toNat_setWidth]
  omega

end

/-- Every word is its three fields. -/
theorem packWord_fields (w : CmdWord) : packWord (opcodeOf w) (fieldA w) (fieldB w) = w := by
  apply BitVec.eq_of_toNat_eq
  rw [packWord_toNat, opcodeOf_toNat, fieldA_toNat, fieldB_toNat]
  omega

/-- In format Y with its reserved bits zero, `B` is the byte operand widened. -/
theorem imm8_setWidth (w : CmdWord) (h : fieldBHigh w = 0) : (imm8 w).setWidth 32 = fieldB w := by
  have h' := congrArg BitVec.toNat h
  rw [fieldBHigh_toNat] at h'
  apply BitVec.eq_of_toNat_eq
  simp only [BitVec.toNat_setWidth, imm8_toNat, fieldB_toNat] at *
  simp at h'
  omega

end Sys2Proof.Laws
end

