-- ==== Sys2Proof/Laws/State.lean ====
section
/-! SUPPORT. One lemma per field of State per shared update, and the register views of an update: no later proof
unfolds a record update. -/

namespace Sys2Proof.Machine

@[simp] theorem State.respond_engine (s : State) (d : Word) : (s.respond d).engine = s.engine := rfl
@[simp] theorem State.respond_buflen (s : State) (d : Word) : (s.respond d).buflen = s.buflen := rfl
@[simp] theorem State.respond_buf (s : State) (d : Word) : (s.respond d).buf = s.buf := rfl
@[simp] theorem State.respond_rsp (s : State) (d : Word) : (s.respond d).rsp = some (.ok d) := rfl
@[simp] theorem State.respond_hostActs (s : State) (d : Word) : (s.respond d).hostActs = s.hostActs := rfl
@[simp] theorem State.respond_draws (s : State) (d : Word) : (s.respond d).draws = s.draws := rfl

@[simp] theorem State.raise_engine (s : State) (x : Err) : (s.raise x).engine = s.engine := rfl
@[simp] theorem State.raise_buflen (s : State) (x : Err) : (s.raise x).buflen = s.buflen := rfl
@[simp] theorem State.raise_buf (s : State) (x : Err) : (s.raise x).buf = s.buf := rfl
@[simp] theorem State.raise_rsp (s : State) (x : Err) : (s.raise x).rsp = some (.error x) := rfl
@[simp] theorem State.raise_hostActs (s : State) (x : Err) : (s.raise x).hostActs = s.hostActs := rfl
@[simp] theorem State.raise_draws (s : State) (x : Err) : (s.raise x).draws = s.draws := rfl

@[simp] theorem State.setEngine_engine (s : State) (e : Engine) : (s.setEngine e).engine = some e := rfl
@[simp] theorem State.setEngine_buflen (s : State) (e : Engine) : (s.setEngine e).buflen = s.buflen := rfl
@[simp] theorem State.setEngine_buf (s : State) (e : Engine) : (s.setEngine e).buf = s.buf := rfl
@[simp] theorem State.setEngine_rsp (s : State) (e : Engine) : (s.setEngine e).rsp = s.rsp := rfl
@[simp] theorem State.setEngine_hostActs (s : State) (e : Engine) : (s.setEngine e).hostActs = s.hostActs := rfl
@[simp] theorem State.setEngine_draws (s : State) (e : Engine) : (s.setEngine e).draws = s.draws := rfl

@[simp] theorem State.construct_engine (s : State) (p : Word) : (s.construct p).engine = some (freshEngine p) := rfl
@[simp] theorem State.construct_buflen (s : State) (p : Word) : (s.construct p).buflen = s.buflen := rfl
@[simp] theorem State.construct_buf (s : State) (p : Word) : (s.construct p).buf = s.buf := rfl
@[simp] theorem State.construct_rsp (s : State) (p : Word) : (s.construct p).rsp = some (.ok 0) := rfl
@[simp] theorem State.construct_hostActs (s : State) (p : Word) : (s.construct p).hostActs = s.hostActs := rfl
@[simp] theorem State.construct_draws (s : State) (p : Word) : (s.construct p).draws = s.draws := rfl

@[simp] theorem State.powerOnReset_engine (s : State) : s.powerOnReset.engine = none := rfl
@[simp] theorem State.powerOnReset_buflen (s : State) : s.powerOnReset.buflen = 0 := rfl
@[simp] theorem State.powerOnReset_buf (s : State) : s.powerOnReset.buf = s.buf := rfl
@[simp] theorem State.powerOnReset_rsp (s : State) : s.powerOnReset.rsp = none := rfl
@[simp] theorem State.powerOnReset_hostActs (s : State) : s.powerOnReset.hostActs = s.hostActs := rfl
@[simp] theorem State.powerOnReset_draws (s : State) : s.powerOnReset.draws = s.draws := rfl

@[simp] theorem State.withFetchWord_engine (s : State) (nbits w : Nat) : (s.withFetchWord nbits w).engine = s.engine := rfl
@[simp] theorem State.withFetchWord_buflen (s : State) (nbits w : Nat) : (s.withFetchWord nbits w).buflen = s.buflen := rfl
@[simp] theorem State.withFetchWord_buf (s : State) (nbits w : Nat) : (s.withFetchWord nbits w).buf = s.buf := rfl
@[simp] theorem State.withFetchWord_rsp (s : State) (nbits w : Nat) : (s.withFetchWord nbits w).rsp = s.rsp := rfl
@[simp] theorem State.withFetchWord_hostActs (s : State) (nbits w : Nat) : (s.withFetchWord nbits w).hostActs = .issue (BitVec.ofNat 72 (w % 2 ^ nbits)) :: s.hostActs := rfl
@[simp] theorem State.withFetchWord_draws (s : State) (nbits w : Nat) : (s.withFetchWord nbits w).draws = s.draws := rfl

@[simp] theorem hostWrite_engine (s : State) (a : Word) (b : Byte) : (hostWrite a b s).engine = s.engine := rfl
@[simp] theorem hostWrite_buflen (s : State) (a : Word) (b : Byte) : (hostWrite a b s).buflen = s.buflen := rfl
@[simp] theorem hostWrite_buf (s : State) (a : Word) (b : Byte) : (hostWrite a b s).buf = s.buf.write a.toNat b := rfl
@[simp] theorem hostWrite_rsp (s : State) (a : Word) (b : Byte) : (hostWrite a b s).rsp = s.rsp := rfl
@[simp] theorem hostWrite_hostActs (s : State) (a : Word) (b : Byte) : (hostWrite a b s).hostActs = s.hostActs := rfl
@[simp] theorem hostWrite_draws (s : State) (a : Word) (b : Byte) : (hostWrite a b s).draws = s.draws := rfl

/-! Register views where an engine is there. -/

section views
variable {s : State} {e : Engine}

theorem State.poly_of (h : s.engine = some e) : s.poly = some e.poly := by simp [State.poly, h]
theorem State.table_of (h : s.engine = some e) : s.table = some e.table := by simp [State.table, h]
theorem State.running_of (h : s.engine = some e) : s.running = some e.running := by simp [State.running, h]
theorem State.result_of (h : s.engine = some e) : s.result = e.result := by simp [State.result, h]
theorem State.built_of (h : s.engine = some e) : s.built = true := by simp [State.built, h]
theorem State.built_eq_false (h : s.engine = none) : s.built = false := by simp [State.built, h]

theorem State.built_iff : s.built = true ↔ ∃ e, s.engine = some e := by
  simp [State.built, Option.isSome_iff_exists]

/-- R37 (b) holds of every state: a result lives inside an engine. -/
theorem State.built_of_rv (h : s.rv = true) : s.built = true := by
  cases hE : s.engine with
  | none => simp [State.rv, State.result, hE] at h
  | some e => exact State.built_of hE

/-- Ending a command with an answer changes no register view. -/
@[simp] theorem State.respond_poly (d : Word) : (s.respond d).poly = s.poly := rfl
@[simp] theorem State.respond_table (d : Word) : (s.respond d).table = s.table := rfl
@[simp] theorem State.respond_running (d : Word) : (s.respond d).running = s.running := rfl
@[simp] theorem State.respond_result (d : Word) : (s.respond d).result = s.result := rfl
@[simp] theorem State.respond_built (d : Word) : (s.respond d).built = s.built := rfl
@[simp] theorem State.respond_rv (d : Word) : (s.respond d).rv = s.rv := rfl
@[simp] theorem State.raise_poly (x : Err) : (s.raise x).poly = s.poly := rfl
@[simp] theorem State.raise_table (x : Err) : (s.raise x).table = s.table := rfl
@[simp] theorem State.raise_running (x : Err) : (s.raise x).running = s.running := rfl
@[simp] theorem State.raise_result (x : Err) : (s.raise x).result = s.result := rfl
@[simp] theorem State.raise_built (x : Err) : (s.raise x).built = s.built := rfl
@[simp] theorem State.raise_rv (x : Err) : (s.raise x).rv = s.rv := rfl
@[simp] theorem State.raise_outputs (x : Err) : (s.raise x).outputs = s.outputs := rfl

end views

end Sys2Proof.Machine
end

