-- ==== Sys2Proof/Laws/Meaning.lean ====
section
/-! SUPPORT. What each command can do, said once: its answer without an engine, its answer with one, and for the shared
operations everything they can answer. Provers cite these instead of unfolding a meaning. -/

namespace Sys2Proof.Machine

section
variable {s : State} {e : Engine}

theorem State.withEngine_none (h : s.engine = none) (f : Engine → Answer) :
    s.withEngine f = .next (s.raise .notConstructed) := by simp [State.withEngine, h]

theorem State.withEngine_some (h : s.engine = some e) (f : Engine → Answer) : s.withEngine f = f e := by
  simp [State.withEngine, h]

/-- Everything a command that needs an engine can answer. -/
theorem State.withEngine_cases {f : Engine → Answer} {t : State} (h : s.withEngine f = .next t) :
    (s.engine = none ∧ t = s.raise .notConstructed) ∨ ∃ e, s.engine = some e ∧ f e = .next t := by
  obtain hE | ⟨e, hE⟩ := Option.eq_none_or_eq_some s.engine
  · rw [State.withEngine_none hE] at h; cases h; exact .inl ⟨hE, rfl⟩
  · rw [State.withEngine_some hE] at h; exact .inr ⟨e, hE, h⟩

@[simp] theorem exec_buildD (s : State) : exec .buildD s = .next (s.construct Config.defaultPoly) := rfl

@[simp] theorem exec_buildP (p : Word) (s : State) : exec (.buildP p) s = .next (s.construct p) := rfl

@[simp] theorem exec_setlen (n : Word) (s : State) : exec (.setlen n) s = .next ({ s with buflen := n }.respond 0) := rfl

theorem exec_reset_of (h : s.engine = some e) :
    exec .reset s = .next ((s.setEngine { e with running := Config.initState, result := none }).respond 0) :=
  State.withEngine_some h _

theorem exec_updb_of (h : s.engine = some e) (b : Byte) :
    exec (.updb b) s = .next ((s.setEngine { e with running := foldByte e.table e.running b }).respond 0) :=
  State.withEngine_some h _

theorem exec_final_of (h : s.engine = some e) :
    exec .final s = .next ((s.setEngine { e with result := some (fin e.running) }).respond (fin e.running)) :=
  State.withEngine_some h _

theorem exec_rdtab_of (h : s.engine = some e) (i : Byte) :
    exec (.rdtab i) s = .next (s.respond (tableAt e.table i)) :=
  State.withEngine_some h _

theorem exec_updr_of (h : s.engine = some e) {off len : Word} (hr : inRange off len s.buflen = true) :
    exec (.updr off len) s =
      .next (({ s with draws := (s.subRange off len).2 }.setEngine (e.foldIn (s.subRange off len).1)).respond 0) := by
  simp [exec, execUpdr, State.withEngine_some h, hr]

theorem exec_updr_outside (h : s.engine = some e) {off len : Word} (hr : inRange off len s.buflen = false) :
    exec (.updr off len) s = .next (s.raise .rangeError) := by
  simp [exec, execUpdr, State.withEngine_some h, hr]

/-- The commands that need an engine (R153). -/
def needsEngine : Instr → Bool
  | .reset | .updb _ | .updr _ _ | .final | .rdtab _ => true
  | .buildD | .buildP _ | .setlen _ => false

theorem exec_unbuilt {i : Instr} (hi : needsEngine i = true) (h : s.engine = none) :
    exec i s = .next (s.raise .notConstructed) := by
  cases i <;> first | exact State.withEngine_none h _ | simp [needsEngine] at hi

/-- Everything a command can do: an error that changes nothing, a construction, a new buffer length, or an effect on an
engine that keeps its polynomial and its table. -/
theorem exec_cases {i : Instr} {t : State} (h : exec i s = .next t) :
    (∃ x, t = s.raise x) ∨ (∃ p, t = s.construct p) ∨ (∃ n, t = { s with buflen := n }.respond 0) ∨
    ∃ e e' d n, s.engine = some e ∧ e'.poly = e.poly ∧ e'.table = e.table ∧
      t = { s with engine := some e', rsp := some (.ok d), draws := n } := by
  obtain hE | ⟨e, hE⟩ := Option.eq_none_or_eq_some s.engine
  · cases i with
    | buildD => cases h; exact .inr (.inl ⟨_, rfl⟩)
    | buildP p => cases h; exact .inr (.inl ⟨_, rfl⟩)
    | setlen n => cases h; exact .inr (.inr (.inl ⟨_, rfl⟩))
    | _ => rw [exec_unbuilt rfl hE] at h; cases h; exact .inl ⟨_, rfl⟩
  · cases i with
    | buildD => cases h; exact .inr (.inl ⟨_, rfl⟩)
    | buildP p => cases h; exact .inr (.inl ⟨_, rfl⟩)
    | setlen n => cases h; exact .inr (.inr (.inl ⟨_, rfl⟩))
    | reset => rw [exec_reset_of hE] at h; cases h; refine .inr (.inr (.inr ⟨e, _, _, s.draws, hE, ?_, ?_, rfl⟩)) <;> rfl
    | updb b => rw [exec_updb_of hE] at h; cases h; refine .inr (.inr (.inr ⟨e, _, _, s.draws, hE, ?_, ?_, rfl⟩)) <;> rfl
    | final => rw [exec_final_of hE] at h; cases h; refine .inr (.inr (.inr ⟨e, _, _, s.draws, hE, ?_, ?_, rfl⟩)) <;> rfl
    | rdtab i =>
      rw [exec_rdtab_of hE] at h; cases h
      exact .inr (.inr (.inr ⟨e, e, tableAt e.table i, s.draws, hE, rfl, rfl, by simp [State.respond, ← hE]⟩))
    | updr off len =>
      cases hr : inRange off len s.buflen with
      | false => rw [exec_updr_outside hE hr] at h; cases h; exact .inl ⟨_, rfl⟩
      | true =>
        rw [exec_updr_of hE hr] at h; cases h
        exact .inr (.inr (.inr ⟨e, e.foldIn (s.subRange off len).1, 0, _, hE, rfl, rfl, rfl⟩))

/-- No command touches the host's buffer or plans, and every command leaves an answer. -/
theorem exec_host {i : Instr} {t : State} (h : exec i s = .next t) :
    t.buf = s.buf ∧ t.hostActs = s.hostActs ∧ t.rsp.isSome := by
  rcases exec_cases h with ⟨x, rfl⟩ | ⟨p, rfl⟩ | ⟨n, rfl⟩ | ⟨e, e', d, n, -, -, -, rfl⟩ <;> simp

/-- Every command is answered: the meaning never stops. -/
theorem exec_next (i : Instr) (s : State) : ∃ t, exec i s = .next t := by
  obtain hE | ⟨e, hE⟩ := Option.eq_none_or_eq_some s.engine
  · cases i with
    | buildD => exact ⟨_, rfl⟩
    | buildP p => exact ⟨_, rfl⟩
    | setlen n => exact ⟨_, rfl⟩
    | _ => exact ⟨_, exec_unbuilt rfl hE⟩
  · cases i with
    | buildD => exact ⟨_, rfl⟩
    | buildP p => exact ⟨_, rfl⟩
    | setlen n => exact ⟨_, rfl⟩
    | reset => exact ⟨_, exec_reset_of hE⟩
    | updb b => exact ⟨_, exec_updb_of hE b⟩
    | final => exact ⟨_, exec_final_of hE⟩
    | rdtab i => exact ⟨_, exec_rdtab_of hE i⟩
    | updr off len =>
      cases hr : inRange off len s.buflen with
      | false => exact ⟨_, exec_updr_outside hE hr⟩
      | true => exact ⟨_, exec_updr_of hE hr⟩

end

end Sys2Proof.Machine
end

