-- ==== Sys2Proof/Laws/Memory.lean ====
section
/-! SUPPORT. The input buffer: read after write, the canonical form kept, and what reading a range gives. -/

namespace Sys2Proof.Machine

theorem Memory.byteAt_nil (a : Nat) : Memory.byteAt [] a = none := rfl

theorem Memory.byteAt_cons (c : Host.Cell) (m : Memory) (a : Nat) :
    Memory.byteAt (c :: m) a = if c.1 = a then some c.2 else m.byteAt a := rfl

/-- An address below every listed one was never written. -/
theorem Memory.byteAt_of_lt {m : Memory} {a : Nat} (h : ∀ c ∈ m, a < c.1) : m.byteAt a = none := by
  induction m with
  | nil => rfl
  | cons c m ih =>
    have hc := h c (by simp)
    rw [Memory.byteAt_cons, if_neg (by omega)]
    exact ih fun d hd => h d (by simp [hd])

/-- Read after write, at every address and in every list of cells. -/
theorem Memory.byteAt_write (m : Memory) (a : Nat) (b : Byte) (x : Nat) :
    (m.write a b).byteAt x = if x = a then some b else m.byteAt x := by
  induction m with
  | nil => simp [Memory.write, Memory.byteAt_cons, Memory.byteAt_nil, eq_comm]
  | cons c m ih =>
    simp only [Memory.write]
    split
    · simp [Memory.byteAt_cons, eq_comm]
    · split
      · rename_i h1 h2
        subst h2
        simp only [Memory.byteAt_cons]
        split <;> simp_all [eq_comm]
      · rename_i h1 h2
        simp only [Memory.byteAt_cons, ih]
        split
        · rename_i h3
          subst h3
          simp [Ne.symm h2]
        · rfl

theorem Memory.byteAt_write_same (m : Memory) (a : Nat) (b : Byte) : (m.write a b).byteAt a = some b := by
  simp [Memory.byteAt_write]

theorem Memory.byteAt_write_other (m : Memory) {a x : Nat} (b : Byte) (h : x ≠ a) :
    (m.write a b).byteAt x = m.byteAt x := by simp [Memory.byteAt_write, h]

/-- A cell after a write is the written one or was there before. -/
theorem Memory.mem_write {m : Memory} {a : Nat} {b : Byte} {c : Host.Cell} (h : c ∈ m.write a b) :
    c = (a, b) ∨ c ∈ m := by
  induction m with
  | nil => simpa [Memory.write] using h
  | cons d m ih =>
    simp only [Memory.write] at h
    split at h
    · simpa using h
    · split at h
      · simp only [List.mem_cons] at h ⊢; tauto
      · simp only [List.mem_cons] at h ⊢
        rcases h with h | h
        · exact .inr (.inl h)
        · rcases ih h with h | h
          · exact .inl h
          · exact .inr (.inr h)

theorem Memory.wf_nil : Memory.wf [] := by simp [Memory.wf]

/-- A write of a 32-bit address keeps the canonical form. -/
theorem Memory.write_wf {m : Memory} {a : Nat} (b : Byte) (ha : a < 2 ^ 32) (h : m.wf) : (m.write a b).wf := by
  refine ⟨?_, fun c hc => ?_⟩
  · obtain ⟨hs, -⟩ := h
    induction m with
    | nil => simp [Memory.write]
    | cons c m ih =>
      obtain ⟨hcm, hm⟩ := List.pairwise_cons.1 hs
      simp only [Memory.write]
      split
      · rename_i hlt
        refine List.pairwise_cons.2 ⟨fun d hd => ?_, hs⟩
        rcases List.mem_cons.1 hd with rfl | hd
        · exact hlt
        · exact hlt.trans (hcm d hd)
      · split
        · rename_i heq
          subst heq
          exact List.pairwise_cons.2 ⟨hcm, hm⟩
        · refine List.pairwise_cons.2 ⟨fun d hd => ?_, ih hm⟩
          rcases Memory.mem_write hd with rfl | hd
          · simp only; omega
          · exact hcm d hd
  · rcases Memory.mem_write hc with rfl | hc
    · exact ha
    · exact h.2 c hc

theorem hostWrite_wf {s : State} (a : Word) (b : Byte) (h : s.buf.wf) : (hostWrite a b s).buf.wf :=
  Memory.write_wf b a.isLt h

/-! ### Reading a range -/

@[simp] theorem bufReads_zero (m : Memory) (a d : Nat) : bufReads m a 0 d = ([], d) := rfl

theorem bufReads_succ (m : Memory) (a n d : Nat) :
    bufReads m a (n + 1) d =
      ((bufRead m a d).1 :: (bufReads m (a + 1) n (bufRead m a d).2).1,
        (bufReads m (a + 1) n (bufRead m a d).2).2) := rfl

theorem bufRead_written {m : Memory} {a : Nat} {b : Byte} (h : m.byteAt a = some b) (d : Nat) :
    bufRead m a d = (b, d) := by simp [bufRead, h]

theorem bufRead_unwritten {m : Memory} {a : Nat} (h : m.byteAt a = none) (d : Nat) :
    bufRead m a d = (Config.unwrittenByte d, d + 1) := by simp [bufRead, h]

@[simp] theorem bufReads_length (m : Memory) (a n d : Nat) : (bufReads m a n d).1.length = n := by
  induction n generalizing a d with
  | zero => rfl
  | succ n ih => simp [bufReads_succ, ih]

/-- A range is its first part and then the rest, the draws going on where the first part left them. -/
theorem bufReads_add (m : Memory) (a n k d : Nat) :
    bufReads m a (n + k) d =
      ((bufReads m a n d).1 ++ (bufReads m (a + n) k (bufReads m a n d).2).1,
        (bufReads m (a + n) k (bufReads m a n d).2).2) := by
  induction n generalizing a d with
  | zero => simp
  | succ n ih =>
    rw [show n + 1 + k = (n + k) + 1 by omega, bufReads_succ, bufReads_succ, ih,
      show a + 1 + n = a + (n + 1) by omega]
    simp

/-- A range the host has written reads as what it wrote, and draws nothing. -/
theorem bufReads_written {m : Memory} {a d : Nat} {bs : List Byte}
    (h : ∀ k (hk : k < bs.length), m.byteAt (a + k) = some bs[k]) : bufReads m a bs.length d = (bs, d) := by
  induction bs generalizing a with
  | nil => rfl
  | cons b bs ih =>
    have h0 : m.byteAt a = some b := h 0 (Nat.succ_pos _)
    have hr : bufReads m (a + 1) bs.length d = (bs, d) := by
      refine ih fun k hk => ?_
      have := h (k + 1) (by simp; omega)
      rw [show a + 1 + k = a + (k + 1) by omega]
      simpa using this
    simp [bufReads_succ, bufRead_written h0, hr]

/-- Reading draws at most one free value a byte. -/
theorem bufReads_draws (m : Memory) (a n d : Nat) :
    d ≤ (bufReads m a n d).2 ∧ (bufReads m a n d).2 ≤ d + n := by
  induction n generalizing a d with
  | zero => simp
  | succ n ih =>
    have hr : d ≤ (bufRead m a d).2 ∧ (bufRead m a d).2 ≤ d + 1 := by
      unfold bufRead; split <;> simp
    have := ih (a + 1) (bufRead m a d).2
    simp only [bufReads_succ]
    omega

end Sys2Proof.Machine
end

