-- ==== Sys2Proof/Laws/Step.lean ====
section
/-! SUPPORT. What one step can do, said once. -/

namespace Sys2Proof.Machine

theorem step_idle {s : State} (h : s.hostActs = []) : step s = .next s := by simp [step, h]

theorem step_act {s : State} {act : HostAction} {rest : List HostAction} (h : s.hostActs = act :: rest) :
    step s = hostAct act { s with hostActs := rest } := by simp [step, h]

/-- Everything a step can do: nothing, a command, an illegal word, a host write, power-on reset. -/
theorem step_cases {s t : State} (h : step s = .next t) :
    (s.hostActs = [] ∧ t = s) ∨
    (∃ w rest i, s.hostActs = .issue w :: rest ∧ decode w = .ok i ∧ exec i { s with hostActs := rest } = .next t) ∨
    (∃ w rest x, s.hostActs = .issue w :: rest ∧ decode w = .error x ∧
      t = { s with hostActs := rest }.raise .illegalCommand) ∨
    (∃ a b rest, s.hostActs = .writeBuf a b :: rest ∧ t = hostWrite a b { s with hostActs := rest }) ∨
    (∃ rest, s.hostActs = .powerOn :: rest ∧ t = { s with hostActs := rest }.powerOnReset) := by
  cases hA : s.hostActs with
  | nil => rw [step_idle hA] at h; cases h; exact .inl ⟨rfl, rfl⟩
  | cons act rest =>
    rw [step_act hA] at h
    cases act with
    | issue w =>
      simp only [hostAct, issueWord] at h
      cases hD : decode w with
      | ok i => rw [hD] at h; exact .inr (.inl ⟨w, rest, i, rfl, hD, h⟩)
      | error x => rw [hD] at h; cases h; exact .inr (.inr (.inl ⟨w, rest, x, rfl, hD, rfl⟩))
    | writeBuf a b => cases h; exact .inr (.inr (.inr (.inl ⟨a, b, rest, rfl, rfl⟩)))
    | powerOn => cases h; exact .inr (.inr (.inr (.inr ⟨rest, rfl, rfl⟩)))

end Sys2Proof.Machine
end

