-- ==== Sys2Proof/Laws/Run.lean ====
section
/-! SUPPORT. Runs of several steps, and the lengths of the pseudo-instructions' expansions. -/

namespace Sys2Proof.Machine

theorem runs_zero (s : State) : runs 0 s s := rfl

/-- A step and then a run. -/
theorem runs_succ {s t u : State} {k : Nat} (h : step s = .next t) (hr : runs k t u) : runs (k + 1) s u := by
  unfold runs at *
  simp only [Host.Core.run]
  rw [show Sys2Proof.core.step s = .next t from h]
  exact hr

/-- A run and then a run. -/
theorem runs_add {s t u : State} {k l : Nat} (h : runs k s t) (hr : runs l t u) : runs (k + l) s u := by
  induction k generalizing s with
  | zero => cases h; simpa using hr
  | succ k ih =>
    unfold runs at h
    simp only [Host.Core.run] at h
    cases hs : Sys2Proof.core.step s with
    | next v =>
      rw [hs] at h
      rw [show k + 1 + l = k + l + 1 by omega]
      exact runs_succ hs (ih h)
    | fault r => rw [hs] at h; cases h
    | refused r => rw [hs] at h; cases h

/-- `iterN` is the library's iteration. -/
theorem iterN_eq_iterate (p : Word) (k : Nat) (v : Word) : iterN p k v = (iter1 p)^[k] v := by
  induction k generalizing v with
  | zero => rfl
  | succ k ih => rw [iterN, ih]; rfl

/-- `fold` is the library's left fold. -/
theorem fold_eq_foldl (t : Table) (s : Word) (m : List Byte) : fold t s m = m.foldl (foldByte t) s := by
  induction m generalizing s with
  | nil => rfl
  | cons b m ih => exact ih _

@[simp] theorem bufActs_length (a : Nat) (m : List Byte) : (bufActs a m).length = m.length := by
  induction m generalizing a with
  | nil => rfl
  | cons b m ih => simp [bufActs, ih]

@[simp] theorem updsActs_length (m : List Byte) : (updsActs m).length = m.length := by simp [updsActs]

@[simp] theorem chunkActs_length (c : List Byte) : (chunkActs c).length = c.length + 2 := by simp [chunkActs]

end Sys2Proof.Machine
end

