-- ==== Sys2Proof/Tests/Slice0.lean ====
section
/-! SUPPORT. Tests: expected values from spec/95_test_vectors.md, ill-formed words refused, and a witness for the
hypotheses of every statement. -/

set_option Elab.async false

namespace Sys2Proof.Machine.Tests

/-! ### Helpers -/

/-- A block right after `BUILD.P p`, with `n` in `BUFLEN`. -/
def builtState (p n : Word) : State := { State.reset with engine := some (freshEngine p), buflen := n }

/-- The same in the middle of a computation, with a published result. -/
def midState (running : Word) (result : Option Word) : State :=
  { builtState Config.defaultPoly 9 with
    engine := some { freshEngine Config.defaultPoly with running := running, result := result } }

/-- "123456789" at address 0 (95 section 1.2). -/
def digitsBuf : Memory :=
  [(0, 0x31), (1, 0x32), (2, 0x33), (3, 0x34), (4, 0x35), (5, 0x36), (6, 0x37), (7, 0x38), (8, 0x39)]

def digitsState : State := { builtState Config.defaultPoly 9 with buf := digitsBuf }

/-- A host action stands next. -/
def acting (s : State) (acts : List HostAction) : State := { s with hostActs := acts }

/-- What a test asks of the next state. -/
def nextHas (o : Answer) (f : State → Bool) : Bool :=
  match o with
  | .next t => f t
  | .fault _ => false
  | .refused _ => false

/-! ### Ill-formed words (R75, 95 section 2.7): one for each check of `wordLegal` -/

theorem test_illegal_opcode_zero : wordLegal 0x000000000000000000#72 = false := by decide
theorem test_illegal_opcode_nine : wordLegal 0x090000000000000000#72 = false := by decide
theorem test_illegal_all_ones : wordLegal 0xFFFFFFFFFFFFFFFFFF#72 = false := by decide
theorem test_illegal_buildD_b : wordLegal 0x010000000000000001#72 = false := by decide
theorem test_illegal_reset_a : wordLegal 0x038000000000000000#72 = false := by decide
theorem test_illegal_final_b : wordLegal 0x060000000000000001#72 = false := by decide
theorem test_illegal_buildP_a : wordLegal 0x0200000001EDB88320#72 = false := by decide
theorem test_illegal_setlen_a : wordLegal 0x070000000100000000#72 = false := by decide
theorem test_illegal_updb_high : wordLegal 0x040000000000000131#72 = false := by decide
theorem test_illegal_updb_a : wordLegal 0x040000000100000031#72 = false := by decide
theorem test_illegal_rdtab_high : wordLegal 0x080000000000000100#72 = false := by decide
theorem test_legal_updr_all_ones : wordLegal 0x05FFFFFFFFFFFFFFFF#72 = true := by decide
theorem test_wellFormed : (Instr.updr 0xFFFFFFFF#32 0xFFFFFFFF#32).wellFormed = true := by decide

/-! ### Decoding: every constructor's word written out from R70 to R73 (95 section 2.7) -/

theorem test_decode_buildD : decode 0x010000000000000000#72 = .ok .buildD := by decide
theorem test_decode_buildP : decode 0x0200000000EDB88320#72 = .ok (.buildP 0xEDB88320#32) := by decide
theorem test_decode_reset : decode 0x030000000000000000#72 = .ok .reset := by decide
theorem test_decode_updb : decode 0x0400000000000000FF#72 = .ok (.updb 0xFF#8) := by decide
theorem test_decode_updr : decode 0x050000000400000005#72 = .ok (.updr 4 5) := by decide
theorem test_decode_final : decode 0x060000000000000000#72 = .ok .final := by decide
theorem test_decode_setlen : decode 0x0700000000FFFFFFFF#72 = .ok (.setlen 0xFFFFFFFF#32) := by decide
theorem test_decode_rdtab : decode 0x080000000000000080#72 = .ok (.rdtab 0x80#8) := by decide
theorem test_decode_unassigned : decode 0x090000000000000000#72 = .error .unassignedOpcode := by decide
theorem test_decode_reserved : decode 0x040000000100000031#72 = .error .reservedBits := by decide
theorem test_decodeTableWord : decodeTableWord 72 0x050000000400000005 = some (.updr 4 5) := by decide
theorem test_decodeTableWord_illegal : decodeTableWord 72 0 = none := by decide
theorem test_encode_updr : encode (.updr 5 5) = 0x050000000500000005#72 := by decide
theorem test_response_word : (Response.ok 0xCBF43926#32).word = 0x0CBF43926#36 ∧
    (Response.error .notConstructed).word = 0x300000000#36 := by decide

/-! ### The pure functions (95 sections 2.1 to 2.4) -/

theorem test_iter1_logical_shift : iter1 0xEDB88320#32 0x80000000#32 = 0x40000000#32 := by decide
theorem test_iter1_odd : iter1 0xEDB88320#32 0xFFFFFFFF#32 = 0x92477CDF#32 := by decide
theorem test_tabEntry_fe : tabEntry 0xEDB88320#32 0xFE#8 = 0x5A05DF1B#32 := by decide
theorem test_buildTable_castagnoli : tableAt (buildTable 0x82F63B78#32) 1 = 0xF26B8303#32 := by decide +kernel
theorem test_buildTable_forward : tableAt (buildTable 0x04C11DB7#32) 2 = 0x05C45641#32 := by decide +kernel
theorem test_foldByte : foldByte (buildTable 0xEDB88320#32) 0x12345678#32 0xAB#8 = 0x1FC8B738#32 := by decide +kernel
theorem test_fold_abc :
    fold (buildTable 0xEDB88320#32) 0xFFFFFFFF#32 [0x61, 0x62, 0x63] = 0xCADBBE3D#32 := by decide +kernel
theorem test_fin : fin 0x340BC6D9#32 = 0xCBF43926#32 := by decide

/-! ### The commands, one step each -/

/-- R96: from power-on reset. -/
theorem test_buildD : nextHas (exec .buildD State.reset) (fun t =>
    t.rsp = some (.ok 0) ∧ t.outputs = ⟨true, false, none⟩ ∧ t.running = some 0xFFFFFFFF#32 ∧
    t.table.map (tableAt · 0x80#8) = some 0xEDB88320#32) = true := by decide +kernel

/-- R95: re-construction discards the result and keeps `BUFLEN`. -/
theorem test_buildD_again : nextHas (exec .buildD (midState 0x12345678#32 (some 1))) (fun t =>
    t.result = none ∧ t.buflen = 9 ∧ t.running = some 0xFFFFFFFF#32) = true := by decide +kernel

/-- R97: program P3, row 1. -/
theorem test_buildP : nextHas (exec (.buildP 0x82F63B78#32) State.reset) (fun t =>
    t.poly = some 0x82F63B78#32 ∧ t.table.map (tableAt · 0xFF#8) = some 0xAD7D5351#32) = true := by decide +kernel

/-- R116: the example. -/
theorem test_reset : nextHas (exec .reset (midState 0x340BC6D9#32 (some 0xCBF43926#32))) (fun t =>
    t.rsp = some (.ok 0) ∧ t.running = some 0xFFFFFFFF#32 ∧ t.outputs = ⟨true, false, none⟩) = true := by
  decide +kernel

/-- R118: legal before construction (95 section 2.9). -/
theorem test_setlen : nextHas (exec (.setlen 4) State.reset) (fun t =>
    t.rsp = some (.ok 0) ∧ t.buflen = 4 ∧ t.built = false) = true := by decide

/-- R120: the example. -/
theorem test_updb : nextHas (exec (.updb 0x31) (builtState Config.defaultPoly 0)) (fun t =>
    t.running = some 0x7C231048#32) = true := by decide +kernel

/-- R145: program P4, row 17: the published result goes stale and stays. -/
theorem test_updb_after_final : nextHas (exec (.updb 0x62) (midState 0x174841BC#32 (some 0xE8B7BE43#32))) (fun t =>
    t.running = some 0x617CB792#32 ∧ t.result = some 0xE8B7BE43#32) = true := by decide +kernel

/-- R123: program P2, row 3. -/
theorem test_updr : nextHas (exec (.updr 0 4) digitsState) (fun t =>
    t.running = some 0x641C1F5C#32 ∧ t.draws = 0) = true := by decide +kernel

/-- R125: the sum does not wrap (95 section 2.8). -/
theorem test_updr_no_wrap : nextHas (exec (.updr 0xFFFFFFFF#32 2) { digitsState with buflen := 16 }) (fun t =>
    t.rsp = some (.error .rangeError) ∧ t.running = some 0xFFFFFFFF#32) = true := by decide +kernel

/-- R142: the example. -/
theorem test_final : nextHas (exec .final (midState 0x340BC6D9#32 none)) (fun t =>
    t.rsp = some (.ok 0xCBF43926#32) ∧ t.running = some 0x340BC6D9#32 ∧
    t.outputs = ⟨true, true, some 0xCBF43926#32⟩) = true := by decide +kernel

/-- R98: the example. -/
theorem test_rdtab : nextHas (exec (.rdtab 0xFF) (builtState Config.defaultPoly 0)) (fun t =>
    t.rsp = some (.ok 0x2D02EF8D#32)) = true := by decide +kernel

/-- R153 (95 section 2.9). -/
theorem test_final_notConstructed : nextHas (exec .final State.reset) (fun t =>
    t = { State.reset with rsp := some (.error .notConstructed) }) = true := by decide

/-! ### Steps -/

theorem test_step_illegal : nextHas (step (State.reset.withFetchWord 72 0x040000000100000031)) (fun t =>
    t = { State.reset with rsp := some (.error .illegalCommand) }) = true := by decide

theorem test_step_runs : nextHas (step (State.reset.withFetchWord 72 0x0700000000FFFFFFFF)) (fun t =>
    t.buflen = 0xFFFFFFFF#32 ∧ t.hostActs = []) = true := by decide

theorem test_step_writeBuf : nextHas (step (acting digitsState [.writeBuf 2 0xAB, .powerOn])) (fun t =>
    t.buf.byteAt 2 = some 0xAB#8 ∧ t.buf.byteAt 3 = some 0x34#8 ∧ t.hostActs = [.powerOn]) = true := by decide +kernel

theorem test_step_powerOn : nextHas (step (acting digitsState [.powerOn])) (fun t =>
    t = { State.reset with buf := digitsBuf }) = true := by decide +kernel

theorem test_digits_canonical : Memory.wf digitsBuf := by decide
/-- A range the host wrote only in part draws one free byte for each other address, and reads the rest as written. -/
theorem test_reads_unwritten : (bufReads digitsBuf 8 3 0).2 = 2 ∧ (bufReads digitsBuf 8 3 0).1[0]? = some 0x39#8 := by
  decide

theorem test_write_order : Memory.write [(1, 0x31), (7, 0x37)] 3 0 = [(1, 0x31), (3, 0), (7, 0x37)] := by decide

/-! ### Assembler (R78 to R84) -/

theorem test_asm_comment : parseLine "UPDR 0xFFFFFFFF, 2 ; no wrap".toList = some (.command (.updr 0xFFFFFFFF#32 2)) := by
  decide
theorem test_asm_char : parseLine "UPDB '1'".toList = some (.command (.updb 0x31#8)) := by decide
theorem test_asm_upds : parseLine "UPDS \"12;\"".toList = some (.upds [0x31, 0x32, 0x3B]) := by decide
theorem test_asm_hash : parseLine "HASH \"12\", \"\"".toList = some (.hash [[0x31, 0x32], []]) := by decide
theorem test_asm_buf : parseLine ".buf 4, 0x31 50 'a'".toList = some (.dotBuf 4 [0x31, 0x32, 0x61]) := by decide
theorem test_asm_too_wide : parseLine "RDTAB 256".toList = none := by decide
theorem test_asm_lines : assemble "BUILD\nFINAL".toList =
    some [.issue 0x010000000000000000#72, .issue 0x060000000000000000#72] := by decide
theorem test_asm_hash_expands : (AsmLine.hash [[0x31]]).expand =
    some [.issue 0x030000000000000000#72, .writeBuf 0 0x31, .issue 0x070000000000000001#72,
      .issue 0x050000000000000001#72, .issue 0x060000000000000000#72] := by decide

/-! ### Witnesses: for every statement with hypotheses, a state and operands that meet them, clause by clause -/

/-- The engine of `builtState`. -/
def anEngine : Engine := freshEngine Config.defaultPoly

/-- A past that fits `builtState`. -/
theorem history_of_builtState (p n : Word) : HistoryHolds (builtState p n) History.start := by
  refine ⟨fun e h => ?_, State.built_of_rv, fun r h => ?_, fun e r v h h' => ?_, fun e h => ?_⟩
  · cases h; rfl
  · cases h
  · cases h; cases h'
  · cases h; rfl

/-- A block right after FINAL on no bytes, and its past. -/
def finalState : State := { builtState Config.defaultPoly 9 with
  engine := some { anEngine with result := some (fin Config.initState) } }

def finalHistory : History := ⟨[], some Config.initState, []⟩

theorem history_of_finalState : HistoryHolds finalState finalHistory := by
  refine ⟨fun e h => ?_, State.built_of_rv, fun r h => ?_, fun e r v h h' h'' => ?_, fun e h => ?_⟩
  · cases h; rfl
  · cases h; exact ⟨_, rfl, rfl⟩
  · cases h; cases h''; rfl
  · cases h; rfl

theorem witness_DecodeEncode : (Instr.updb 0xFF).wellFormed = true := by decide

theorem witness_EncodeDecode : decode 0x0200000000FFFFFFFF#72 = .ok (.buildP 0xFFFFFFFF#32) := by decide

theorem witness_DecodeFollowsOpcodeMap :
    (∃ r ∈ opcodeRows, r.isMatch 0x0800000000000000FF#72 = true) ∧
    decode 0x0800000000000000FF#72 = .ok (.rdtab 0xFF) ∧ wordLegal 0x080000000000000100#72 = false := by decide

theorem witness_OperandFields :
    decode 0x0200000000FFFFFFFF#72 = .ok (.buildP 0xFFFFFFFF#32) ∧
    decode 0x0700000000FFFFFFFF#72 = .ok (.setlen 0xFFFFFFFF#32) ∧
    decode 0x0400000000000000FF#72 = .ok (.updb 0xFF) ∧ decode 0x0800000000000000FF#72 = .ok (.rdtab 0xFF) ∧
    decode 0x05FFFFFFFFFFFFFFFF#72 = .ok (.updr 0xFFFFFFFF#32 0xFFFFFFFF#32) := by decide

theorem witness_IllegalWords : ∃ (s : State) (w : CmdWord) (rest : List HostAction),
    s.hostActs = .issue w :: rest ∧ wordLegal w = false :=
  ⟨acting State.reset [.issue 0], 0, [], rfl, by decide⟩

theorem witness_UpdsPseudo : ∃ (s : State) (e : Engine) (text : List Byte) (rest : List HostAction),
    s.engine = some e ∧ text ≠ [] ∧ s.hostActs = updsActs text ++ rest :=
  ⟨acting (builtState Config.defaultPoly 0) (updsActs [0x31] ++ [.powerOn]), anEngine, [0x31], [.powerOn], rfl,
    by decide, rfl⟩

/-- The last address of the buffer space. -/
theorem witness_BufDirective : ∃ (s : State) (a : Word) (m : List Byte) (acts rest : List HostAction),
    m ≠ [] ∧ a.toNat + m.length = 2 ^ 32 ∧ (AsmLine.dotBuf a m).expand = some acts ∧ s.hostActs = acts ++ rest :=
  ⟨acting State.reset (bufActs 0xFFFFFFFF [0x31]), 0xFFFFFFFF#32, [0x31], bufActs 0xFFFFFFFF [0x31], [], by decide,
    by decide, by decide, by decide⟩

theorem witness_HashPseudo :
    (∃ (s : State) (e : Engine) (chunks : List (List Byte)) (acts rest : List HostAction), s.engine = some e ∧
      TableOfPoly s ∧ (AsmLine.hash chunks).expand = some acts ∧ s.hostActs = acts ++ rest) ∧
    (∃ (s : State) (e : Engine) (chunks : List (List Byte)) (rest : List HostAction), s.engine = some e ∧
      TableOfPoly s ∧ s.hostActs = hashBytesActs chunks ++ rest) :=
  ⟨⟨acting (builtState Config.defaultPoly 0) (hashActs [[0x31], []] ++ []), anEngine, [[0x31], []],
      hashActs [[0x31], []], [], rfl, (history_of_builtState _ 0).table, by decide, rfl⟩,
    ⟨acting (builtState Config.defaultPoly 0) (hashBytesActs [[0x31], []] ++ []), anEngine, [[0x31], []], [], rfl,
      (history_of_builtState _ 0).table, rfl⟩⟩

theorem witness_StepRunsDecoded : ∃ (s : State) (w : CmdWord) (rest : List HostAction) (i : Instr),
    s.hostActs = .issue w :: rest ∧ decode w = .ok i ∧ i.wellFormed = true :=
  ⟨acting State.reset [.issue (encode .buildD)], encode .buildD, [], .buildD, rfl, by decide, rfl⟩

theorem witness_CommandsAnswered : ∃ (s : State) (w : CmdWord) (rest : List HostAction),
    s.hostActs = .issue w :: rest :=
  ⟨acting State.reset [.issue 0], 0, [], rfl⟩

theorem witness_IdleHolds : State.reset.hostActs = [] := rfl

theorem witness_HostWritesBuffer : ∃ (s : State) (a : Word) (b : Byte) (rest : List HostAction),
    s.hostActs = .writeBuf a b :: rest :=
  ⟨acting digitsState [.writeBuf 0xFFFFFFFF#32 1], 0xFFFFFFFF#32, 1, [], rfl⟩

theorem witness_PowerOnResetState : ∃ (s : State) (rest : List HostAction),
    s.hostActs = .powerOn :: rest ∧ s.rv = true :=
  ⟨acting finalState [.powerOn], [], rfl, rfl⟩

theorem witness_PowerOnDuringCommand : (∃ t, exec (.updr 0 9) digitsState = .next t) ∧
    ∃ (s : State) (rest : List HostAction), s.hostActs = .powerOn :: rest :=
  ⟨⟨_, rfl⟩, acting digitsState [.powerOn], [], rfl⟩

theorem witness_TableContents : (31 : Nat) < 32 := by decide

theorem witness_TableFacts : (∃ (s : State) (e : Engine), s.engine = some e ∧ TableOfPoly s) ∧ (7 : Nat) < 8 :=
  ⟨⟨builtState 5 0, freshEngine 5, rfl, (history_of_builtState 5 0).table⟩, by decide⟩

theorem witness_BuildDefault :
    (opcodeOf 0x010000000000000001#72 = 0x01#8 ∧ 0x010000000000000001#72 ≠ 0x010000000000000000#72) ∧
    ∃ t, exec .buildD State.reset = .next t := ⟨by decide, _, rfl⟩

theorem witness_BuildCustom :
    (opcodeOf 0x020000000100000000#72 = 0x02#8 ∧ fieldA 0x020000000100000000#72 ≠ 0) ∧
    ∃ t, exec (.buildP 0) State.reset = .next t := ⟨by decide, _, rfl⟩

theorem witness_ReadTable :
    (opcodeOf 0x080000000000000100#72 = 0x08#8 ∧ fieldBHigh 0x080000000000000100#72 ≠ 0) ∧
    State.reset.built = false ∧ ∃ e, (builtState 5 0).engine = some e ∧ TableOfPoly (builtState 5 0) :=
  ⟨by decide, rfl, _, rfl, (history_of_builtState 5 0).table⟩

/-- At the end of the range: two chunks that fill it; and the whole of it. -/
theorem witness_ChunkInvariance :
    (0#32).toNat + (4#32).toNat + (5#32).toNat ≤ digitsState.buflen.toNat ∧
    digitsState.engine = some anEngine ∧ inRange 0 9 digitsState.buflen = true := ⟨by decide, rfl, by decide⟩

theorem witness_ResetCommand :
    (opcodeOf 0x030000000000000001#72 = 0x03#8 ∧ 0x030000000000000001#72 ≠ 0x030000000000000000#72) ∧
    State.reset.built = false ∧ finalState.engine.isSome = true ∧ (∃ t, exec .reset finalState = .next t) ∧
    ∃ t, exec (.buildP 1) State.reset = .next t := ⟨by decide, rfl, rfl, ⟨_, rfl⟩, _, rfl⟩

theorem witness_ResetIndependence : ∃ (s₁ s₂ : State) (e₁ e₂ : Engine), s₁.engine = some e₁ ∧ s₂.engine = some e₂ ∧
    e₁ ≠ e₂ ∧ TableOfPoly s₁ ∧ TableOfPoly s₂ ∧ e₁.poly = e₂.poly ∧ s₁.buflen = s₂.buflen ∧ s₁.buf = s₂.buf ∧
    s₁.draws = s₂.draws :=
  ⟨finalState, builtState Config.defaultPoly 9, _, _, rfl, rfl, fun h => by simpa [freshEngine] using congrArg Engine.result h,
    history_of_finalState.table, (history_of_builtState _ 9).table, rfl, rfl, rfl, rfl⟩

theorem witness_SetLength :
    (opcodeOf 0x070000000100000000#72 = 0x07#8 ∧ fieldA 0x070000000100000000#72 ≠ 0) ∧
    (∃ t, exec (.setlen 0) digitsState = .next t ∧ t.built = true) ∧ 0 < (0#32).toNat + (1#32).toNat :=
  ⟨by decide, ⟨_, rfl, rfl⟩, by decide⟩

theorem witness_UpdateByte :
    (opcodeOf 0x040000000000000131#72 = 0x04#8 ∧ fieldBHigh 0x040000000000000131#72 ≠ 0) ∧
    State.reset.built = false ∧ digitsState.engine.isSome = true := ⟨by decide, rfl, rfl⟩

/-- All ones in the operands; without an engine; one byte beyond `BUFLEN`; exactly up to it, all bytes written. -/
theorem witness_UpdateRange : opcodeOf 0x05FFFFFFFFFFFFFFFF#72 = 0x05#8 ∧ State.reset.built = false ∧ digitsState.engine = some anEngine ∧
    digitsState.buflen.toNat < (8#32).toNat + (2#32).toNat ∧
    (8#32).toNat + (1#32).toNat ≤ digitsState.buflen.toNat ∧ digitsState.buf.byteAt ((8#32).toNat + 0) = some 0x39 ∧
    SubRangeWritten digitsState 8 1 := by
  refine ⟨by decide, rfl, rfl, by decide, by decide, by decide, fun k hk => ?_⟩
  have : k = 0 := by simp at hk; omega
  subst this
  decide

/-- One written byte and one that is not, up to `BUFLEN`. -/
theorem witness_UpdateRangeAnyBuffer : ∃ (s : State) (e : Engine), s.engine = some e ∧
    (8#32).toNat + (2#32).toNat ≤ s.buflen.toNat ∧ s.buf.byteAt 8 = some 0x39 ∧ s.buf.byteAt 9 = none :=
  ⟨{ digitsState with buflen := 10 }, anEngine, rfl, by decide, by decide, by decide⟩

theorem witness_WrittenBytesDecide : ∃ (s : State) (m : Memory) (off len : Word), 0 < len.toNat ∧
    SubRangeWritten s off len ∧ (∀ k, k < len.toNat → m.byteAt (off.toNat + k) = s.buf.byteAt (off.toNat + k)) ∧
    m ≠ s.buf ∧ ∃ t, exec (.updr off len) s = .next t :=
  ⟨digitsState, digitsBuf.write 20 7, 8, 1, by decide, witness_UpdateRange.2.2.2.2.2.2,
    fun k hk => Memory.byteAt_write_other _ _ (by simp at hk; simp; omega), by decide, _, rfl⟩

/-- At the end of the sequence, one beyond it, and without an engine. -/
theorem witness_ZeroLengthUpdate : digitsState.built = true ∧ (9#32).toNat ≤ digitsState.buflen.toNat ∧
    digitsState.buflen.toNat < (10#32).toNat ∧ State.reset.built = false := ⟨rfl, by decide, by decide, rfl⟩

/-- The highest address that can ever be read (95 section 2.8). -/
theorem witness_RangeCheckArithmetic :
    inRange 0xFFFFFFFE#32 1 0xFFFFFFFF#32 = true ∧ (0 : Nat) < (1#32).toNat := by decide

theorem witness_Complement : (31 : Nat) < 32 := by decide

theorem witness_ComplementInverse : ∃ t, digitsState.running = some 0xFFFFFFFF#32 ∧
    exec .final digitsState = .next t ∧ t.rsp = some (.ok 0) := ⟨_, rfl, rfl, by decide⟩

theorem witness_FinalCommand :
    (opcodeOf 0x060000000000000001#72 = 0x06#8 ∧ 0x060000000000000001#72 ≠ 0x060000000000000000#72) ∧
    State.reset.built = false ∧ digitsState.engine = some anEngine ∧
    digitsState.running = some 0xFFFFFFFF#32 ∧ ∃ t, exec .final digitsState = .next t :=
  ⟨by decide, rfl, rfl, rfl, _, rfl⟩

theorem witness_FinalIdempotent : (∃ t, exec .final digitsState = .next t) ∧
    HistoryHolds finalState finalHistory ∧ finalState.result = some (fin Config.initState) ∧
    finalHistory.sinceFinal = [] := ⟨⟨_, rfl⟩, history_of_finalState, rfl, rfl⟩

theorem witness_EmptyInput : (finalState.built = true ∧ ∃ t, exec .reset finalState = .next t) ∧
    (∃ t, exec (.buildP 3) finalState = .next t) ∧ (∃ t, exec .buildD finalState = .next t) ∧
    HistoryHolds finalState finalHistory ∧ finalHistory.folded = [] :=
  ⟨⟨rfl, _, rfl⟩, ⟨_, rfl⟩, ⟨_, rfl⟩, history_of_finalState, rfl⟩

theorem witness_UpdateAfterFinal : digitsState.engine = some anEngine ∧ inRange 0 9 digitsState.buflen = true :=
  ⟨rfl, by decide⟩

theorem witness_PublishedChecksum : ∃ (s : State) (e : Engine) (h : History), HistoryHolds s h ∧ s.engine = some e :=
  ⟨finalState, _, finalHistory, history_of_finalState, rfl⟩

/-- Both sides of the equivalence. -/
theorem witness_RangeErrorExactly :
    (∃ t, exec (.updr 9 1) digitsState = .next t ∧ t.rsp = some (.error .rangeError)) ∧
    ∃ t, exec (.updr 9 0) digitsState = .next t ∧ t.rsp = some (.ok 0) := ⟨⟨_, rfl, rfl⟩, _, rfl, rfl⟩

theorem witness_NotConstructedExactly :
    (∃ t, exec (.rdtab 0) State.reset = .next t ∧ t.rsp = some (.error .notConstructed)) ∧
    ∃ t, exec (.rdtab 0) digitsState = .next t ∧ digitsState.built = true := ⟨⟨_, rfl, rfl⟩, _, rfl, rfl⟩

theorem witness_ErrorsChangeNothing :
    ∃ t, exec (.updr 9 1) digitsState = .next t ∧ t.rsp = some (.error .rangeError) := ⟨_, rfl, rfl⟩

theorem witness_ErrorPriority :
    (∃ (s : State) (w : CmdWord) (rest : List HostAction), s.hostActs = .issue w :: rest ∧ wordLegal w = false) ∧
    (∃ (s : State) (w : CmdWord) (rest : List HostAction), s.hostActs = .issue w :: rest ∧
      decode w = .ok (.updr 5 5) ∧ s.built = false) ∧
    ∃ (s : State) (w : CmdWord) (rest : List HostAction), s.hostActs = .issue w :: rest ∧
      decode w = .ok (.updr 5 5) ∧ s.built = true ∧ s.buflen.toNat < (5#32).toNat + (5#32).toNat :=
  ⟨witness_IllegalWords,
    ⟨acting State.reset [.issue 0x050000000500000005#72], _, [], rfl, by decide, rfl⟩,
    acting digitsState [.issue 0x050000000500000005#72], _, [], rfl, by decide, rfl, by decide⟩

theorem witness_FlagRules : (∃ t, exec .final digitsState = .next t ∧ t.rv = true) ∧
    ∃ t, exec (.updr 9 1) finalState = .next t ∧ t.rsp = some (.error .rangeError) := ⟨⟨_, rfl, rfl⟩, _, rfl, rfl⟩

theorem witness_BuflenRules : (∃ t, exec (.setlen 3) digitsState = .next t) ∧
    ∃ t, (∀ off len, Instr.final ≠ .updr off len) ∧ (∀ k, Instr.final ≠ .setlen k) ∧
      exec .final digitsState = .next t := ⟨⟨_, rfl⟩, _, by simp, by simp, rfl⟩

theorem witness_FrameBuilder : (∃ t, exec .buildD finalState = .next t) ∧ (∃ t, exec (.buildP 1) finalState = .next t) ∧
    ∃ t, exec (.rdtab 255) finalState = .next t := ⟨⟨_, rfl⟩, ⟨_, rfl⟩, _, rfl⟩

theorem witness_FrameUpdates : (∃ t, exec (.updb 1) digitsState = .next t) ∧
    (∃ t, exec (.updr 8 1) digitsState = .next t) ∧ SubRangeWritten digitsState 8 1 :=
  ⟨⟨_, rfl⟩, ⟨_, rfl⟩, witness_UpdateRange.2.2.2.2.2.2⟩

theorem witness_FrameControl : (∃ t, exec .reset finalState = .next t) ∧ (∃ t, exec .final finalState = .next t) ∧
    ∃ t, exec (.setlen 0xFFFFFFFF#32) finalState = .next t := ⟨⟨_, rfl⟩, ⟨_, rfl⟩, _, rfl⟩

theorem witness_StateNotObservable : (Instr.updb 0xFF) ≠ .final ∧ digitsState.running = some 0xFFFFFFFF#32 :=
  ⟨by decide, rfl⟩

theorem witness_HistoryKept : ∃ (s t : State) (h : History), HistoryHolds s h ∧ step s = .next t ∧ t.rv = false ∧
    s.rv = true :=
  ⟨acting finalState [.issue (encode .reset)], _, finalHistory,
    ⟨history_of_finalState.table, history_of_finalState.rv_built, history_of_finalState.result_final,
      history_of_finalState.since_final, history_of_finalState.running⟩, rfl, rfl, rfl⟩

theorem witness_BufCanonicalKept : ∃ (s t : State), BufCanonical s ∧ step s = .next t ∧ t.buf ≠ s.buf :=
  ⟨acting digitsState [.writeBuf 9 0], _, test_digits_canonical, rfl, by decide⟩

theorem witness_BootOrder : (∃ t, exec (.buildP 1) digitsState.powerOnReset = .next t) ∧
    ((0#32, 1#32) : Word × Word) ≠ (0, 0) := ⟨⟨_, rfl⟩, by decide⟩

end Sys2Proof.Machine.Tests
end

section
/-! PROOFS. The family 00_scope.md: the step (O12, O13), the published checksum (O42), HASH (O11). -/

namespace Sys2Proof.Machine

/-! ### Issuing a command -/

/-- The decoder reads back every command the encoder writes (R71, R74). -/
@[simp] theorem decode_encode (i : Instr) : decode (encode i) = .ok i := by
  cases i with
  | buildD | reset | final => simp [encode, decode, formatZ]
  | buildP p | setlen n => simp [encode, decode, formatW]
  | updb b | rdtab k => simp [encode, decode, formatY]
  | updr off len => simp [encode, decode, formatX]

theorem issueWord_of_decode {w : CmdWord} {i : Instr} (h : decode w = .ok i) (s : State) :
    issueWord w s = exec i s := by simp [issueWord, h]

theorem issueWord_illegal {w : CmdWord} {x : DecodeError} (h : decode w = .error x) (s : State) :
    issueWord w s = .next (s.raise .illegalCommand) := by simp [issueWord, h]

/-- The step on a word that decodes is the meaning of its command (R12, R32). -/
theorem step_issue_of_decode {s : State} {w : CmdWord} {rest : List HostAction} {i : Instr}
    (h : s.hostActs = .issue w :: rest) (hd : decode w = .ok i) :
    step s = exec i { s with hostActs := rest } :=
  (step_act h).trans (issueWord_of_decode hd _)

/-- The step on a command of an expansion (R79 to R84). -/
theorem step_issueInstr {s : State} {i : Instr} {rest : List HostAction}
    (h : s.hostActs = issueInstr i :: rest) : step s = exec i { s with hostActs := rest } :=
  step_issue_of_decode h (decode_encode i)

/-- A command of an expansion and then a run. -/
theorem runs_command {s t u : State} {i : Instr} {rest : List HostAction} {k : Nat}
    (h : s.hostActs = issueInstr i :: rest) (he : exec i { s with hostActs := rest } = .next t) (hr : runs k t u) :
    runs (k + 1) s u :=
  runs_succ ((step_issueInstr h).trans he) hr

theorem step_writeBuf {s : State} {a : Word} {b : Byte} {rest : List HostAction}
    (h : s.hostActs = .writeBuf a b :: rest) : step s = .next (hostWrite a b { s with hostActs := rest }) :=
  step_act h

/-- The word placed by `withFetchWord` is the one issued, with the host's own plan behind it. -/
theorem withFetchWord_encode (s : State) (i : Instr) :
    s.withFetchWord 72 (encode i).toNat = { s with hostActs := issueInstr i :: s.hostActs } := by
  have hw : BitVec.ofNat 72 ((encode i).toNat % 2 ^ 72) = encode i := by
    rw [Nat.mod_eq_of_lt (encode i).isLt, BitVec.ofNat_toNat, BitVec.setWidth_eq]
  rw [State.withFetchWord, State.presentWord, hw, issueInstr]

/-- Every word is answered, and the answer touches none of the host's plans (R76). -/
theorem issueWord_answers (w : CmdWord) (s : State) :
    ∃ t r, issueWord w s = .next t ∧ t.hostActs = s.hostActs ∧ t.rsp = some r := by
  cases hd : decode w with
  | error x => exact ⟨_, _, issueWord_illegal hd s, rfl, rfl⟩
  | ok i =>
    obtain ⟨t, ht⟩ := exec_next i s
    obtain ⟨-, hacts, hrsp⟩ := exec_host ht
    obtain ⟨r, hr⟩ := Option.isSome_iff_exists.1 hrsp
    exact ⟨t, r, (issueWord_of_decode hd s).trans ht, hacts, hr⟩

theorem step_next (s : State) : ∃ t, step s = .next t := by
  cases hA : s.hostActs with
  | nil => exact ⟨s, step_idle hA⟩
  | cons act rest =>
    rw [step_act hA]
    cases act with
    | issue w =>
      obtain ⟨t, -, ht, -⟩ := issueWord_answers w { s with hostActs := rest }
      exact ⟨t, ht⟩
    | writeBuf a b => exact ⟨_, rfl⟩
    | powerOn => exact ⟨_, rfl⟩

/-! ### The host fills its buffer -/

/-- The bytes `m` placed at `a`, `a + 1`, and so on (R81). -/
def Memory.writeAll : Memory → Nat → List Byte → Memory
  | buf, _, [] => buf
  | buf, a, b :: m => Memory.writeAll (buf.write a b) (a + 1) m

/-- A byte outside the written range stays. -/
theorem Memory.byteAt_writeAll_outside (buf : Memory) (a : Nat) (m : List Byte) {x : Nat}
    (h : x < a ∨ a + m.length ≤ x) : (buf.writeAll a m).byteAt x = buf.byteAt x := by
  induction m generalizing buf a with
  | nil => rfl
  | cons b m ih =>
    rw [List.length_cons] at h
    rw [Memory.writeAll, ih _ _ (by omega), Memory.byteAt_write_other _ _ (by omega)]

/-- Each byte of the written range is the one placed there. -/
theorem Memory.byteAt_writeAll (buf : Memory) (a : Nat) (m : List Byte) (k : Nat) (hk : k < m.length) :
    (buf.writeAll a m).byteAt (a + k) = some m[k] := by
  induction m generalizing buf a k with
  | nil => cases hk
  | cons b m ih =>
    cases k with
    | zero =>
      rw [Memory.writeAll, Memory.byteAt_writeAll_outside _ _ _ (by omega)]
      exact Memory.byteAt_write_same _ _ _
    | succ k =>
      rw [Memory.writeAll, show a + (k + 1) = a + 1 + k by omega]
      exact ih _ _ _ (Nat.lt_of_succ_lt_succ hk)

/-- The whole of what the directive's expansion does, for a range within the address space (R81). -/
theorem runs_bufActs {a : Nat} {m : List Byte} {rest : List HostAction} {s : State}
    (hm : a + m.length ≤ 2 ^ 32) (h : s.hostActs = bufActs a m ++ rest) :
    runs m.length s { s with buf := s.buf.writeAll a m, hostActs := rest } := by
  induction m generalizing a s with
  | nil => cases s; cases h; rfl
  | cons b m ih =>
    rw [List.length_cons] at hm
    have ha : (BitVec.ofNat 32 a).toNat = a := Nat.mod_eq_of_lt (by omega)
    refine runs_succ (step_writeBuf h) ?_
    have hr := ih (a := a + 1)
      (s := hostWrite (BitVec.ofNat 32 a) b { s with hostActs := bufActs (a + 1) m ++ rest }) (by omega) rfl
    rw [hostWrite_buf, ha] at hr
    exact hr

/-! ### FINAL -/

/-- What FINAL publishes is the complement of the running state (R142). -/
theorem exec_final_published {s : State} {e : Engine} (hE : s.engine = some e) :
    ∃ t, exec .final s = .next t ∧ t.rsp = some (.ok (fin e.running)) ∧
      t.outputs = ⟨true, true, some (fin e.running)⟩ :=
  ⟨_, exec_final_of hE, rfl, rfl⟩

/-- Under R37 (a) and (d) the complement of the running state is the checksum of the bytes folded. -/
theorem HistoryHolds.fin_running {s : State} {h : History} (hh : HistoryHolds s h) {e : Engine}
    (hE : s.engine = some e) : fin e.running = crc e.poly h.folded := by
  rw [crc, hh.running e hE, hh.table e hE]

/-! ### A computation in progress, and what the actions of HASH do to it -/

theorem fold_append (t : Table) (v : Word) (m n : List Byte) : fold t v (m ++ n) = fold t (fold t v m) n := by
  simp [fold_eq_foldl]

/-- The engine holds the table of `p` and has folded exactly `m` since its state was reset; the host has `acts` still to
carry out. -/
structure Computing (p : Word) (m : List Byte) (acts : List HostAction) (s : State) : Prop where
  hostActs : s.hostActs = acts
  engine   : ∃ e, s.engine = some e ∧ e.table = buildTable p ∧ e.running = fold (buildTable p) Config.initState m

/-- Carried out during any computation, `acts` folds the bytes `m` and nothing else. -/
def Absorbs (acts : List HostAction) (m : List Byte) : Prop :=
  ∀ (p : Word) (m₀ : List Byte) (rest : List HostAction) (s : State), Computing p m₀ (acts ++ rest) s →
    ∃ t, runs acts.length s t ∧ Computing p (m₀ ++ m) rest t

theorem absorbs_nil : Absorbs [] [] := fun _ m₀ _ s h =>
  ⟨s, runs_zero s, by rwa [List.append_nil]⟩

theorem Absorbs.append {acts acts' : List HostAction} {m m' : List Byte} (h : Absorbs acts m)
    (h' : Absorbs acts' m') : Absorbs (acts ++ acts') (m ++ m') := by
  intro p m₀ rest s hs
  rw [List.append_assoc] at hs
  obtain ⟨t, hst, ht⟩ := h p m₀ _ s hs
  obtain ⟨u, htu, hu⟩ := h' p _ rest t ht
  rw [List.append_assoc] at hu
  exact ⟨u, List.length_append ▸ runs_add hst htu, hu⟩

/-- Chunk after chunk: where the source is split makes no difference. -/
theorem absorbs_flatMap {f : List Byte → List HostAction} {chunks : List (List Byte)}
    (h : ∀ c ∈ chunks, Absorbs (f c) c) : Absorbs (chunks.flatMap f) chunks.flatten := by
  induction chunks with
  | nil => exact absorbs_nil
  | cons c chunks ih =>
    obtain ⟨hc, hchunks⟩ := List.forall_mem_cons.1 h
    exact hc.append (ih hchunks)

theorem absorbs_updb (b : Byte) : Absorbs [issueInstr (.updb b)] [b] := by
  rintro p m₀ rest s ⟨hA, e, hE, hT, hR⟩
  have hs := exec_updb_of (s := { s with hostActs := rest }) hE b
  exact ⟨_, runs_command hA hs (runs_zero _), rfl, _, rfl, hT, by simp [fold_append, fold, hT, hR]⟩

theorem absorbs_updsActs (text : List Byte) : Absorbs (updsActs text) text := by
  induction text with
  | nil => exact absorbs_nil
  | cons b text ih => exact (absorbs_updb b).append ih

/-- A sub-range the host has written reads as what it wrote (R53). -/
theorem State.subRange_of_written {s : State} {off len : Word} {bs : List Byte} (hlen : len.toNat = bs.length)
    (h : ∀ k (hk : k < bs.length), s.buf.byteAt (off.toNat + k) = some bs[k]) : s.subRange off len = (bs, s.draws) := by
  rw [State.subRange, hlen]
  exact bufReads_written h

/-- The UPDR that takes in the whole input sequence, every byte of it written. -/
theorem exec_updr_whole {s : State} {e : Engine} {bs : List Byte} (hE : s.engine = some e)
    (hlen : s.buflen.toNat = bs.length) (h : ∀ k (hk : k < bs.length), s.buf.byteAt (0 + k) = some bs[k]) :
    exec (.updr 0 s.buflen) s = .next ((s.setEngine (e.foldIn bs)).respond 0) := by
  have hr : inRange 0 s.buflen s.buflen = true := by simp [inRange]
  rw [exec_updr_of hE hr, State.subRange_of_written hlen h]

/-- One chunk of HASH through the buffer (R84). -/
theorem absorbs_chunkActs {c : List Byte} (hc : c.length < 2 ^ 32) : Absorbs (chunkActs c) c := by
  rintro p m₀ rest s ⟨hA, e, hE, hT, hR⟩
  rw [chunkActs, List.append_assoc] at hA
  have hlen : (BitVec.ofNat 32 c.length).toNat = c.length := Nat.mod_eq_of_lt hc
  have hfill := runs_bufActs (by omega) hA
  have hupdr := exec_updr_whole (s := { s with
    buf := s.buf.writeAll 0 c
    buflen := BitVec.ofNat 32 c.length
    rsp := some (.ok 0)
    hostActs := rest }) hE hlen (s.buf.byteAt_writeAll 0 c)
  refine ⟨_, chunkActs_length c ▸ runs_add hfill (runs_command rfl (exec_setlen _ _)
    (runs_command rfl hupdr (runs_zero _))), ⟨rfl, e.foldIn c, rfl, hT, ?_⟩⟩
  rw [fold_append, ← hR, ← hT]
  rfl

/-- RESET on a built block begins the computation of no bytes (R116). -/
theorem exec_reset_computing {s : State} {e : Engine} (hE : s.engine = some e) (hT : TableOfPoly s) :
    ∃ t, exec .reset s = .next t ∧ Computing e.poly [] s.hostActs t :=
  ⟨_, exec_reset_of hE, rfl, _, rfl, hT e hE, rfl⟩

/-- FINAL ends a computation with the checksum of its bytes (R17, R142). -/
theorem Computing.exec_final {p : Word} {m : List Byte} {acts : List HostAction} {s : State}
    (h : Computing p m acts s) :
    ∃ t, exec .final s = .next t ∧ t.hostActs = acts ∧ t.rsp = some (.ok (crc p m)) := by
  obtain ⟨hA, e, hE, -, hR⟩ := h
  obtain ⟨t, ht, hrsp, -⟩ := exec_final_published hE
  obtain ⟨-, hAt, -⟩ := exec_host ht
  exact ⟨t, ht, hAt.trans hA, by rw [hrsp, hR, crc]⟩

/-- RESET, a body that takes the bytes `m` in, FINAL: on a built block the last answer is the checksum of `m`. -/
theorem Absorbs.answers_crc {body : List HostAction} {m : List Byte} (hbody : Absorbs body m) {s : State} {e : Engine}
    {rest : List HostAction} (hE : s.engine = some e) (hT : TableOfPoly s)
    (hA : s.hostActs = issueInstr .reset :: (body ++ [issueInstr .final]) ++ rest) :
    ∃ t, runs (issueInstr .reset :: (body ++ [issueInstr .final])).length s t ∧ t.hostActs = rest ∧
      t.rsp = some (.ok (crc e.poly m)) := by
  rw [List.cons_append, List.append_assoc] at hA
  obtain ⟨u, hu, hcu⟩ := exec_reset_computing (s := { s with hostActs := body ++ ([issueInstr .final] ++ rest) }) hE hT
  obtain ⟨v, hv, hAv, hcv⟩ := hbody e.poly [] _ u hcu
  obtain ⟨t, ht, hAt, hrsp⟩ := Computing.exec_final (s := { v with hostActs := rest }) ⟨rfl, hcv⟩
  refine ⟨t, runs_command hA hu ?_, hAt, hrsp⟩
  rw [List.length_append]
  exact runs_add hv (runs_command hAv ht (runs_zero _))

theorem expand_hash {chunks : List (List Byte)} {acts : List HostAction}
    (h : (AsmLine.hash chunks).expand = some acts) : (∀ c ∈ chunks, c.length < 2 ^ 32) ∧ acts = hashActs chunks := by
  rw [AsmLine.expand] at h
  split at h
  · cases h
    exact ⟨‹_›, rfl⟩
  · cases h

/-- The complement of the initial state is 0, whatever the table (R114). -/
theorem crc_nil (p : Word) : crc p [] = 0 := by
  have h : fin Config.initState = 0 := by decide
  exact h

/-! ### The obligations of the family -/

/-- Settles O11, for both forms by one argument: each piece of the expansion absorbs its bytes. -/
theorem hashPseudo : Obligations.HashPseudo := by
  refine ⟨?_, ?_, crc_nil⟩
  · intro s e chunks acts rest hE hT hX hA
    obtain ⟨hlen, rfl⟩ := expand_hash hX
    exact (absorbs_flatMap fun c hc => absorbs_chunkActs (hlen c hc)).answers_crc hE hT hA
  · intro s e chunks rest hE hT hA
    exact (absorbs_flatMap fun c _ => absorbs_updsActs c).answers_crc hE hT hA

/-- Settles O12: the decoder reads back what the encoder wrote, and the step runs it. -/
theorem stepRunsDecoded : Obligations.StepRunsDecoded := by
  refine ⟨fun s w rest i hA hd _ => step_issue_of_decode hA hd, fun s i => ?_⟩
  rw [withFetchWord_encode]
  exact step_issueInstr rfl

/-- Settles O13, by cases on the host's action and on whether its word decodes. -/
theorem commandsAnswered : Obligations.CommandsAnswered := by
  refine ⟨step_next, fun s w rest hA => ?_⟩
  rw [step_act hA]
  exact issueWord_answers w { s with hostActs := rest }

/-- Settles O42, from R37 (a) and (d). -/
theorem publishedChecksum : Obligations.PublishedChecksum := by
  intro s e h hh hE
  rw [← hh.fin_running hE]
  exact exec_final_published hE

end Sys2Proof.Machine
end

section
/-! PROOFS. The family 10_state.md: UPDR over any buffer (O32), the flags (O47), `BUFLEN` (O48), what shows `STATE`
(O52). -/

namespace Sys2Proof.Machine

section
variable {s t : State} {i : Instr}

/-! ### UPDR over any buffer -/

/-- A byte the host has written is read as it wrote it, whatever else of the range it wrote (R53). -/
theorem bufReads_getElem?_of_written {m : Memory} {a n d k : Nat} {b : Byte} (hk : k < n)
    (h : m.byteAt (a + k) = some b) : (bufReads m a n d).1[k]? = some b := by
  induction n generalizing a d k with
  | zero => cases hk
  | succ n ih =>
    rw [bufReads_succ]
    cases k with
    | zero => simp [bufRead_written (a := a) h]
    | succ k =>
      rw [show a + (k + 1) = a + 1 + k by omega] at h
      rw [List.getElem?_cons_succ]
      exact ih (Nat.lt_of_succ_lt_succ hk) h

theorem inRange_iff {off len n : Word} : inRange off len n = true ↔ off.toNat + len.toNat ≤ n.toNat := by
  simp [inRange]

/-! ### The flags -/

/-- An answer that is an error tells that nothing but the answer has changed (R158). -/
theorem eq_raise_of_exec_error {x : Err} (h : exec i s = .next t) (hx : t.rsp = some (.error x)) : t = s.raise x := by
  rcases exec_cases h with ⟨y, rfl⟩ | ⟨p, rfl⟩ | ⟨n, rfl⟩ | ⟨e, e', d, n, -, -, -, rfl⟩
  · cases hx; rfl
  all_goals simp at hx

theorem State.rv_of_unbuilt (h : s.engine = none) : s.rv = false := by simp [State.rv, State.result, h]

/-- `POLY`, `TABLE` and `STATE` hold values together, exactly while `BUILT` is 1 (R27). -/
theorem State.built_iff_registers : s.built = true ↔ s.poly.isSome ∧ s.table.isSome ∧ s.running.isSome := by
  simp [State.built, State.poly, State.table, State.running]

/-- NotConstructed obeys the flag rules: without an engine both flags are 0 before it and after it. -/
theorem raise_flags (h : s.engine = none) (hi : needsEngine i = true) (x : Err) :
    (s.raise x).built = (s.built || isConstruct i) ∧ (s.raise x).rv = rvAfter s i := by
  have hb := State.built_eq_false h
  have hrv := State.rv_of_unbuilt h
  cases i with
  | buildD | buildP p | setlen n => cases hi
  | reset | updb b | updr off len | final | rdtab k => simp [isConstruct, rvAfter, hb, hrv]

/-- What a command does to `BUILT` and `RV` (R27, R28): the commands that need no engine; those that need one and find
none; those that find one. -/
theorem exec_flags (h : exec i s = .next t) : t.built = (s.built || isConstruct i) ∧ t.rv = rvAfter s i := by
  cases hn : needsEngine i with
  | false =>
    cases i with
    | buildD | buildP p => cases h; exact ⟨(Bool.or_true _).symm, rfl⟩
    | setlen n => cases h; exact ⟨(Bool.or_false _).symm, rfl⟩
    | reset | updb b | updr off len | final | rdtab k => cases hn
  | true =>
    obtain hE | ⟨e, hE⟩ := Option.eq_none_or_eq_some s.engine
    · rw [exec_unbuilt hn hE] at h
      cases h
      exact raise_flags hE hn _
    have hb := State.built_of hE
    have hrv : s.rv = e.result.isSome := by rw [State.rv, State.result_of hE]
    cases i with
    | buildD | buildP p | setlen n => cases hn
    | reset => rw [exec_reset_of hE] at h; cases h; exact ⟨by rw [hb]; rfl, rfl⟩
    | final => rw [exec_final_of hE] at h; cases h; exact ⟨by rw [hb]; rfl, hb.symm⟩
    | updb b => rw [exec_updb_of hE] at h; cases h; exact ⟨by rw [hb]; rfl, hrv.symm⟩
    | rdtab k => rw [exec_rdtab_of hE] at h; cases h; exact ⟨(Bool.or_false _).symm, rfl⟩
    | updr off len =>
      cases hr : inRange off len s.buflen with
      | false => rw [exec_updr_outside hE hr] at h; cases h; exact ⟨(Bool.or_false _).symm, rfl⟩
      | true => rw [exec_updr_of hE hr] at h; cases h; exact ⟨by rw [hb]; rfl, hrv.symm⟩

/-! ### `BUFLEN` -/

theorem exec_buflen (h : exec i s = .next t) : t.buflen = buflenAfter s i := by
  cases i with
  | buildD | buildP p | setlen n => cases h; rfl
  | reset | updb b | final | rdtab k =>
    obtain ⟨-, rfl⟩ | ⟨e, -, hf⟩ := State.withEngine_cases h
    · rfl
    · cases hf; rfl
  | updr off len =>
    obtain ⟨-, rfl⟩ | ⟨e, hE, -⟩ := State.withEngine_cases h
    · rfl
    cases hr : inRange off len s.buflen with
    | false => rw [exec_updr_outside hE hr] at h; cases h; rfl
    | true => rw [exec_updr_of hE hr] at h; cases h; rfl

/-- A command that needs an engine does not read `BUFLEN` where its meaning on the engine does not. -/
theorem State.withEngine_set_buflen {f g : Engine → Answer} {n : Word} (h : s.withEngine f = .next t)
    (hfg : ∀ e, f e = .next t → g e = .next { t with buflen := n }) :
    ({ s with buflen := n } : State).withEngine g = .next { t with buflen := n } := by
  obtain ⟨hE, rfl⟩ | ⟨e, hE, hf⟩ := State.withEngine_cases h
  · exact State.withEngine_none (s := { s with buflen := n }) hE _
  · exact (State.withEngine_some (s := { s with buflen := n }) hE _).trans (hfg e hf)

/-- R26: no command but UPDR reads `BUFLEN`; SETLEN overwrites it. -/
theorem exec_set_buflen {n : Word} (hu : ∀ off len, i ≠ .updr off len) (hl : ∀ k, i ≠ .setlen k)
    (h : exec i s = .next t) : exec i { s with buflen := n } = .next { t with buflen := n } := by
  cases i with
  | buildD | buildP p => cases h; rfl
  | reset | updb b | final | rdtab k => exact State.withEngine_set_buflen h fun e hf => by cases hf; rfl
  | updr off len => exact absurd rfl (hu off len)
  | setlen k => exact absurd rfl (hl k)

end

/-! ### The obligations of the family -/

/-- Settles O32: the bytes are those UPDR reads, of which `bufReads` keeps the written ones and counts the draws. -/
theorem updateRangeAnyBuffer : Obligations.UpdateRangeAnyBuffer := by
  intro s e off len hE hlen
  obtain ⟨hle, hge⟩ := bufReads_draws s.buf off.toNat len.toNat s.draws
  refine ⟨(s.subRange off len).1, (s.subRange off len).2, bufReads_length _ _ _ _,
    fun k b hk hb => bufReads_getElem?_of_written hk hb, hle, hge, ?_⟩
  rw [exec_updr_of hE (inRange_iff.2 hlen), Engine.foldIn, fold_eq_foldl]
  rfl

/-- Settles O47, by cases on the command and on whether it finds an engine. -/
theorem flagRules : Obligations.FlagRules := by
  refine ⟨fun i s t h => ?_, fun s => ⟨rfl, rfl⟩⟩
  obtain ⟨hbuilt, hrv⟩ := exec_flags h
  refine ⟨hbuilt, State.built_iff_registers, hrv, fun x hx => ?_, Iff.rfl, rfl⟩
  rw [eq_raise_of_exec_error h hx]
  exact ⟨rfl, rfl⟩

/-- Settles O48: only SETLEN and power-on reset write `BUFLEN`, and only UPDR's range check reads it. -/
theorem buflenRules : Obligations.BuflenRules :=
  ⟨fun _ _ _ h => exec_buflen h, fun _ => rfl, fun _ _ _ _ hu hl h => exec_set_buflen hu hl h⟩

/-- Settles O52: the answer of every command but FINAL, UPDR's range check included, is computed without `STATE`, and
what it writes to `RESULT` is not computed from it. -/
theorem stateNotObservable : Obligations.StateNotObservable := by
  refine ⟨fun i s e v hi => ?_, fun s v hv => ?_⟩
  · have h₁ : ({ s with engine := some e } : State).engine = some e := rfl
    have h₂ : ({ s with engine := some { e with running := v } } : State).engine = some { e with running := v } := rfl
    cases i with
    | buildD | buildP p | setlen n => exact ⟨_, _, rfl, rfl, rfl, rfl, rfl⟩
    | reset => exact ⟨_, _, exec_reset_of h₁, exec_reset_of h₂, rfl, rfl, rfl⟩
    | updb b => exact ⟨_, _, exec_updb_of h₁ b, exec_updb_of h₂ b, rfl, rfl, rfl⟩
    | rdtab k => exact ⟨_, _, exec_rdtab_of h₁ k, exec_rdtab_of h₂ k, rfl, rfl, rfl⟩
    | updr off len =>
      cases hr : inRange off len s.buflen with
      | false => exact ⟨_, _, exec_updr_outside h₁ hr, exec_updr_outside h₂ hr, rfl, rfl, rfl⟩
      | true => exact ⟨_, _, exec_updr_of h₁ hr, exec_updr_of h₂ hr, rfl, rfl, rfl⟩
    | final => exact absurd rfl hi
  · obtain ⟨e, hE, rfl⟩ := Option.map_eq_some_iff.1 hv
    exact ⟨_, exec_final_of hE, rfl, rfl⟩

end Sys2Proof.Machine
end

section
/-! PROOFS. The family 20_memory.md: host writes (O15), written bytes decide (O33), what each command leaves unchanged
(O49, O50, O51), the canonical form of the buffer (O55, O56). -/

namespace Sys2Proof.Machine

section
variable {s t : State} {i : Instr} {off len : Word}

/-! ### A sub-range the host has written -/

/-- The host's duty of R193, as the bytes it wrote. -/
theorem SubRangeWritten.exists_bytes (h : SubRangeWritten s off len) :
    ∃ bs : List Byte, len.toNat = bs.length ∧
      ∀ k (hk : k < bs.length), s.buf.byteAt (off.toNat + k) = some bs[k] :=
  ⟨List.ofFn fun k : Fin len.toNat => (s.buf.byteAt (off.toNat + k)).get (h k k.isLt), by simp, by simp⟩

/-- Every answer of UPDR: an error that changes nothing, or the fold of the sub-range (R123). -/
theorem exec_updr_cases (h : exec (.updr off len) s = .next t) :
    (∃ x, t = s.raise x) ∨ ∃ e, s.engine = some e ∧
      t = ({ s with draws := (s.subRange off len).2 }.setEngine (e.foldIn (s.subRange off len).1)).respond 0 := by
  obtain ⟨-, rfl⟩ | ⟨e, hE, -⟩ := State.withEngine_cases h
  · exact .inl ⟨_, rfl⟩
  cases hr : inRange off len s.buflen with
  | false => rw [exec_updr_outside hE hr] at h; cases h; exact .inl ⟨_, rfl⟩
  | true => rw [exec_updr_of hE hr] at h; cases h; exact .inr ⟨e, hE, rfl⟩

/-- Reading bytes the host wrote draws no free value, so UPDR leaves the count. -/
theorem exec_updr_draws_of_written (h : exec (.updr off len) s = .next t) (hw : SubRangeWritten s off len) :
    t.draws = s.draws := by
  obtain ⟨x, rfl⟩ | ⟨e, -, rfl⟩ := exec_updr_cases h
  · rfl
  · obtain ⟨bs, hlen, hbs⟩ := hw.exists_bytes
    rw [State.subRange_of_written hlen hbs]
    rfl

/-! ### What a command leaves unchanged, one register or memory at a time -/

/-- No command stores to the buffer (R60). -/
theorem exec_byteAt (h : exec i s = .next t) (a : Nat) : t.buf.byteAt a = s.buf.byteAt a := by
  obtain ⟨hbuf, -, -⟩ := exec_host h
  rw [hbuf]

theorem exec_hostActs (h : exec i s = .next t) : t.hostActs = s.hostActs := by
  obtain ⟨-, hacts, -⟩ := exec_host h
  exact hacts

/-- RDTAB changes nothing but the answer (R98). -/
theorem eq_set_rsp_of_exec_rdtab {k : Byte} (h : exec (.rdtab k) s = .next t) : ∃ r, t = { s with rsp := some r } := by
  obtain ⟨-, rfl⟩ | ⟨e, -, hf⟩ := State.withEngine_cases h
  · exact ⟨_, rfl⟩
  · cases hf; exact ⟨_, rfl⟩

/-- Only UPDR reads the buffer, so no other command draws a free value. -/
theorem exec_draws (hi : ∀ off len, i ≠ .updr off len) (h : exec i s = .next t) : t.draws = s.draws := by
  cases i with
  | buildD | buildP p | setlen n => cases h; rfl
  | reset | updb b | final | rdtab k =>
    obtain ⟨-, rfl⟩ | ⟨e, -, hf⟩ := State.withEngine_cases h
    · rfl
    · cases hf; rfl
  | updr off len => exact absurd rfl (hi off len)

/-- Only construction writes `POLY` and `TABLE` (R95). -/
theorem exec_poly_table (hi : isConstruct i = false) (h : exec i s = .next t) :
    t.poly = s.poly ∧ t.table = s.table := by
  cases i with
  | buildD | buildP p => cases hi
  | setlen n => cases h; exact ⟨rfl, rfl⟩
  | rdtab k => obtain ⟨r, rfl⟩ := eq_set_rsp_of_exec_rdtab h; exact ⟨rfl, rfl⟩
  | reset | updb b | final =>
    obtain ⟨-, rfl⟩ | ⟨e, hE, hf⟩ := State.withEngine_cases h
    · exact ⟨rfl, rfl⟩
    · cases hf; exact ⟨(State.poly_of hE).symm, (State.table_of hE).symm⟩
  | updr off len =>
    obtain ⟨x, rfl⟩ | ⟨e, hE, rfl⟩ := exec_updr_cases h
    · exact ⟨rfl, rfl⟩
    · exact ⟨(State.poly_of hE).symm, (State.table_of hE).symm⟩

theorem exec_updb_result {b : Byte} (h : exec (.updb b) s = .next t) : t.result = s.result := by
  obtain ⟨-, rfl⟩ | ⟨e, hE, hf⟩ := State.withEngine_cases h
  · rfl
  · cases hf; exact (State.result_of hE).symm

theorem exec_updr_result (h : exec (.updr off len) s = .next t) : t.result = s.result := by
  obtain ⟨x, rfl⟩ | ⟨e, hE, rfl⟩ := exec_updr_cases h
  · rfl
  · exact (State.result_of hE).symm

theorem exec_final_running (h : exec .final s = .next t) : t.running = s.running := by
  obtain ⟨-, rfl⟩ | ⟨e, hE, hf⟩ := State.withEngine_cases h
  · rfl
  · cases hf; exact (State.running_of hE).symm

/-- `BUILT` stays under every command that constructs nothing (R27). -/
theorem exec_built (hi : isConstruct i = false) (h : exec i s = .next t) : t.built = s.built := by
  obtain ⟨hbuilt, -⟩ := exec_flags h
  rw [hbuilt, hi, Bool.or_false]

end

/-! ### The obligations of the family -/

/-- Settles O15, by read after write. -/
theorem hostWritesBuffer : Obligations.HostWritesBuffer := fun s a b _ hA =>
  ⟨s.buf.write a.toNat b, step_writeBuf hA, Memory.byteAt_write_same _ _ _,
    fun _ hx => Memory.byteAt_write_other _ _ hx⟩

/-- Settles O33: both buffers give UPDR the same bytes and no draw; the errors read no buffer. -/
theorem writtenBytesDecide : Obligations.WrittenBytesDecide := by
  intro s m d off len hw hm t h
  obtain hE | ⟨e, hE⟩ := Option.eq_none_or_eq_some s.engine
  · rw [exec_unbuilt rfl hE] at h
    cases h
    exact exec_unbuilt rfl hE
  have hE' : ({ s with buf := m, draws := d } : State).engine = some e := hE
  cases hr : inRange off len s.buflen with
  | false =>
    rw [exec_updr_outside hE hr] at h
    cases h
    exact exec_updr_outside hE' hr
  | true =>
    obtain ⟨bs, hlen, hbs⟩ := hw.exists_bytes
    have hbs' : ∀ k (hk : k < bs.length), m.byteAt (off.toNat + k) = some bs[k] :=
      fun k hk => (hm k (hlen ▸ hk)).trans (hbs k hk)
    rw [exec_updr_of hE hr, State.subRange_of_written hlen hbs] at h
    cases h
    rw [exec_updr_of hE' hr, State.subRange_of_written hlen hbs']
    rfl

/-- Settles O49, from the frame of each register and memory. -/
theorem frameBuilder : Obligations.FrameBuilder := by
  refine ⟨fun s t i hi h => ⟨?_, exec_byteAt h, exec_hostActs h, ?_⟩, fun s t k h => ?_⟩
  · rw [exec_buflen h]
    obtain rfl | ⟨p, rfl⟩ | ⟨k, rfl⟩ := hi <;> rfl
  · refine exec_draws (fun off len hu => ?_) h
    simp [hu] at hi
  · obtain ⟨r, rfl⟩ := eq_set_rsp_of_exec_rdtab h
    exact ⟨rfl, rfl, rfl, rfl, rfl, rfl⟩

/-- Settles O50, from the frame of each register and memory; `RV` is computed from the result. -/
theorem frameUpdates : Obligations.FrameUpdates := by
  refine ⟨fun s t i hi h => ?_, fun _ _ _ h => exec_draws (fun _ _ hu => by cases hu) h,
    fun _ _ _ _ h hw => exec_updr_draws_of_written h hw⟩
  have hc : isConstruct i = false := by obtain ⟨b, rfl⟩ | ⟨off, len, rfl⟩ := hi <;> rfl
  have hl : buflenAfter s i = s.buflen := by obtain ⟨b, rfl⟩ | ⟨off, len, rfl⟩ := hi <;> rfl
  have hres : t.result = s.result := by
    obtain ⟨b, rfl⟩ | ⟨off, len, rfl⟩ := hi
    · exact exec_updb_result h
    · exact exec_updr_result h
  obtain ⟨hpoly, htable⟩ := exec_poly_table hc h
  exact ⟨hpoly, htable, hres, exec_built hc h, congrArg Option.isSome hres, (exec_buflen h).trans hl,
    exec_byteAt h, exec_hostActs h⟩

/-- Settles O51, from the frame of each register and memory. -/
theorem frameControl : Obligations.FrameControl := by
  refine ⟨fun s t i hi h => ?_, fun _ _ h => exec_buflen h,
    fun _ _ h => ⟨exec_buflen h, exec_final_running h⟩, fun _ _ _ h => ?_⟩
  · have hc : isConstruct i = false := by obtain rfl | rfl | ⟨n, rfl⟩ := hi <;> rfl
    have hu : ∀ off len, i ≠ .updr off len := by
      rintro off len rfl
      simp at hi
    obtain ⟨hpoly, htable⟩ := exec_poly_table hc h
    exact ⟨hpoly, htable, exec_built hc h, exec_byteAt h, exec_hostActs h, exec_draws hu h⟩
  · cases h
    exact ⟨rfl, rfl, rfl⟩

/-- Settles O55: of everything a step can do only a host write changes the buffer, and it keeps the form. -/
theorem bufCanonicalKept : Obligations.BufCanonicalKept := by
  intro s t hw h
  obtain ⟨-, rfl⟩ | ⟨w, rest, i, -, -, hi⟩ | ⟨w, rest, x, -, -, rfl⟩ | ⟨a, b, rest, -, rfl⟩ | ⟨rest, -, rfl⟩ :=
    step_cases h
  · exact hw
  · obtain ⟨hbuf, -, -⟩ := exec_host hi
    rw [BufCanonical, hbuf]
    exact hw
  · exact hw
  · exact hostWrite_wf a b hw
  · exact hw

/-- Settles O56: the empty buffer is canonical. -/
theorem bufCanonicalAtReset : Obligations.BufCanonicalAtReset := Memory.wf_nil

end Sys2Proof.Machine
end

section
/-! PROOFS. The family 30_encoding.md: decoding and encoding (O1, O2, O3, O5), the opcode map (O4, O6), the response word
(O7), the assembler's BUILD, UPDS and `.buf` (O8, O9, O10). -/

namespace Sys2Proof.Machine

section
variable {w : CmdWord} {i j : Instr} {r q : OpcodeRow}

/-! ### A word that a format accepts is the packed word of what it is read as -/

/-- What a format's check of its reserved bits accepts. -/
theorem ite_eq_ok {c : Prop} [Decidable c] {x : DecodeError} (h : (if c then .ok i else .error x) = Except.ok j) :
    c ∧ j = i := by
  split at h
  next hc => cases h; exact ⟨hc, rfl⟩
  next => cases h

theorem packWord_opcode {o : Nat} (ho : (opcodeOf w).toNat = o) :
    packWord (BitVec.ofNat 8 o) (fieldA w) (fieldB w) = w := by
  rw [← ho, BitVec.ofNat_toNat, BitVec.setWidth_eq, Laws.packWord_fields]

theorem formatZ_ok {o : Nat} (ho : (opcodeOf w).toNat = o) (h : formatZ w i = .ok j) :
    j = i ∧ packWord (BitVec.ofNat 8 o) 0 0 = w := by
  obtain ⟨⟨hA, hB⟩, hj⟩ := ite_eq_ok h
  have hw := packWord_opcode ho
  rw [hA, hB] at hw
  exact ⟨hj, hw⟩

theorem formatW_ok {o : Nat} {f : Word → Instr} (ho : (opcodeOf w).toNat = o) (h : formatW w f = .ok j) :
    ∃ p, j = f p ∧ packWord (BitVec.ofNat 8 o) 0 p = w := by
  obtain ⟨hA, hj⟩ := ite_eq_ok h
  have hw := packWord_opcode ho
  rw [hA] at hw
  exact ⟨_, hj, hw⟩

theorem formatY_ok {o : Nat} {f : Byte → Instr} (ho : (opcodeOf w).toNat = o) (h : formatY w f = .ok j) :
    ∃ b : Byte, j = f b ∧ packWord (BitVec.ofNat 8 o) 0 (b.setWidth 32) = w := by
  obtain ⟨⟨hA, hB⟩, hj⟩ := ite_eq_ok h
  have hw := packWord_opcode ho
  rw [hA, ← Laws.imm8_setWidth w hB] at hw
  exact ⟨_, hj, hw⟩

theorem formatX_ok {o : Nat} {f : Word → Word → Instr} (ho : (opcodeOf w).toNat = o) (h : formatX w f = .ok j) :
    ∃ a b, j = f a b ∧ packWord (BitVec.ofNat 8 o) a b = w := by
  cases h
  exact ⟨_, _, rfl, packWord_opcode ho⟩

/-- No bit of a legal word is ignored (R71, R75). -/
theorem encode_of_decode (h : decode w = .ok i) : encode i = w := by
  rw [decode] at h
  split at h
  case h_1 ho | h_3 ho | h_6 ho => obtain ⟨rfl, hw⟩ := formatZ_ok ho h; exact hw
  case h_2 ho | h_7 ho => obtain ⟨p, rfl, hw⟩ := formatW_ok ho h; exact hw
  case h_4 ho | h_8 ho => obtain ⟨b, rfl, hw⟩ := formatY_ok ho h; exact hw
  case h_5 ho => obtain ⟨a, b, rfl, hw⟩ := formatX_ok ho h; exact hw
  case h_9 => cases h

/-- The decoder and the encoder are inverse to each other. -/
theorem decode_eq_ok_iff : decode w = .ok i ↔ encode i = w :=
  ⟨encode_of_decode, fun h => h ▸ decode_encode i⟩

/-! ### The opcode map's masks as arithmetic on the word -/

/-- The mask that fixes every bit of a word but the low `k`. -/
def highMask (k : Nat) : CmdWord := BitVec.allOnes 72 <<< k

theorem toNat_and_highMask (w : CmdWord) (k : Nat) : (w &&& highMask k).toNat = w.toNat / 2 ^ k * 2 ^ k := by
  have hlt : w.toNat / 2 ^ k * 2 ^ k < 2 ^ 72 := (Nat.div_mul_le_self _ _).trans_lt w.isLt
  rw [highMask, ← BitVec.shiftLeft_ushiftRight, BitVec.toNat_shiftLeft, BitVec.toNat_ushiftRight,
    Nat.shiftRight_eq_div_pow, Nat.shiftLeft_eq, Nat.mod_eq_of_lt hlt]

theorem and_highMask_eq_iff {p : CmdWord} {k : Nat} (hp : 2 ^ k ∣ p.toNat) :
    w &&& highMask k = p ↔ w.toNat / 2 ^ k = p.toNat / 2 ^ k := by
  rw [← BitVec.toNat_inj, toNat_and_highMask, Nat.eq_div_iff_mul_eq_left (by positivity) hp, eq_comm]

/-- How many low bits of a word the row's mask leaves to the operands. -/
def rowOperandBits (r : OpcodeRow) : Nat :=
  if r.mask = 0xFF0000000000000000#72 then 64
  else if r.mask = 0xFFFFFFFFFF00000000#72 then 32
  else if r.mask = 0xFFFFFFFFFFFFFFFF00#72 then 8
  else 0

theorem opcodeRows_masks :
    ∀ r ∈ opcodeRows, r.mask = highMask (rowOperandBits r) ∧ 2 ^ rowOperandBits r ∣ r.pattern.toNat := by decide

/-- A word matches a row exactly when the bits above the operands are the row's. -/
theorem isMatch_iff (hr : r ∈ opcodeRows) : r.isMatch w = true ↔
    w.toNat / 2 ^ rowOperandBits r = r.pattern.toNat / 2 ^ rowOperandBits r := by
  obtain ⟨hmask, hdvd⟩ := opcodeRows_masks r hr
  rw [OpcodeRow.isMatch, beq_iff_eq, ← and_highMask_eq_iff hdvd, ← hmask]

/-- `wordLegal`, row by row: opcodes 1, 3, 6 fix the whole word; 2, 7 all but `imm32`; 4, 8 all but `imm8`; 5 itself
only (R71). -/
theorem wordLegal_iff : wordLegal w = true ↔
    w.toNat = 1 * 2 ^ 64 ∨ w.toNat / 2 ^ 32 = 2 * 2 ^ 32 ∨ w.toNat = 3 * 2 ^ 64 ∨ w.toNat / 2 ^ 8 = 4 * 2 ^ 56 ∨
    w.toNat / 2 ^ 64 = 5 ∨ w.toNat = 6 * 2 ^ 64 ∨ w.toNat / 2 ^ 32 = 7 * 2 ^ 32 ∨ w.toNat / 2 ^ 8 = 8 * 2 ^ 56 := by
  rw [wordLegal, List.any_eq_true, exists_congr fun r => and_congr_right isMatch_iff]
  simp [opcodeRows, rowOperandBits]

/-! ### The rows and the commands -/

/-- The encoder's word matches the command's row. -/
theorem row_encode (i : Instr) : Laws.RowMatch.Statement i := by
  cases i with
  | buildD => exact Laws.RowMatch.buildD
  | buildP p => exact Laws.RowMatch.buildP p
  | reset => exact Laws.RowMatch.reset
  | updb b => exact Laws.RowMatch.updb b
  | updr off len => exact Laws.RowMatch.updr off len
  | final => exact Laws.RowMatch.final
  | setlen n => exact Laws.RowMatch.setlen n
  | rdtab k => exact Laws.RowMatch.rdtab k

section
variable {o : Byte}

/-! Each format: a word whose bits above the operands are the opcode's is packed from the opcode and its operands. -/

theorem packWord_of_div_formatZ (h : w.toNat / 2 ^ 0 = o.toNat * 2 ^ 64) : packWord o 0 0 = w := by
  apply BitVec.eq_of_toNat_eq
  simp only [Laws.packWord_toNat, BitVec.ofNat_eq_ofNat, BitVec.toNat_zero]
  omega

theorem packWord_of_div_formatW (h : w.toNat / 2 ^ 32 = o.toNat * 2 ^ 32) : packWord o 0 (fieldB w) = w := by
  apply BitVec.eq_of_toNat_eq
  simp only [Laws.packWord_toNat, Laws.fieldB_toNat, BitVec.ofNat_eq_ofNat, BitVec.toNat_zero]
  omega

theorem packWord_of_div_formatY (h : w.toNat / 2 ^ 8 = o.toNat * 2 ^ 56) :
    packWord o 0 ((imm8 w).setWidth 32) = w := by
  apply BitVec.eq_of_toNat_eq
  simp only [Laws.packWord_toNat, BitVec.toNat_setWidth, Laws.imm8_toNat, BitVec.ofNat_eq_ofNat, BitVec.toNat_zero]
  omega

theorem packWord_of_div_formatX (h : w.toNat / 2 ^ 64 = o.toNat) : packWord o (fieldA w) (fieldB w) = w := by
  rw [← Laws.opcodeOf_toNat] at h
  rw [← BitVec.eq_of_toNat_eq h, Laws.packWord_fields]

end

/-- A word that matches a row is the encoder's word for the row's command, on the operands the word holds. -/
theorem exists_encode_of_isMatch (hr : r ∈ opcodeRows) (h : r.isMatch w = true) : ∃ i, encode i = w ∧ i.row = r := by
  have hw := (isMatch_iff hr).1 h
  simp only [opcodeRows, List.mem_cons, List.not_mem_nil, or_false] at hr
  obtain rfl | rfl | rfl | rfl | rfl | rfl | rfl | rfl := hr
  · exact ⟨.buildD, packWord_of_div_formatZ hw, rfl⟩
  · exact ⟨.buildP (fieldB w), packWord_of_div_formatW hw, rfl⟩
  · exact ⟨.reset, packWord_of_div_formatZ hw, rfl⟩
  · exact ⟨.updb (imm8 w), packWord_of_div_formatY hw, rfl⟩
  · exact ⟨.updr (fieldA w) (fieldB w), packWord_of_div_formatX hw, rfl⟩
  · exact ⟨.final, packWord_of_div_formatZ hw, rfl⟩
  · exact ⟨.setlen (fieldB w), packWord_of_div_formatW hw, rfl⟩
  · exact ⟨.rdtab (imm8 w), packWord_of_div_formatY hw, rfl⟩

/-- A word matches at most one row: that of the command it decodes to. -/
theorem row_eq_of_isMatch (hr : r ∈ opcodeRows) (h : r.isMatch w = true) (hd : decode w = .ok i) : i.row = r := by
  obtain ⟨j, hj, hrow⟩ := exists_encode_of_isMatch hr h
  rw [decode_eq_ok_iff.2 hj] at hd
  cases hd
  exact hrow

theorem row_of_decode (h : decode w = .ok i) : i.row ∈ opcodeRows ∧ i.row.isMatch w = true :=
  encode_of_decode h ▸ row_encode i

/-- A word is a command's exactly when it matches a row (R73). -/
theorem wordLegal_iff_decode : wordLegal w = true ↔ ∃ i, decode w = .ok i := by
  rw [wordLegal, List.any_eq_true]
  constructor
  · rintro ⟨r, hr, hw⟩
    obtain ⟨i, hi, -⟩ := exists_encode_of_isMatch hr hw
    exact ⟨i, decode_eq_ok_iff.2 hi⟩
  · rintro ⟨i, hi⟩
    exact ⟨i.row, row_of_decode hi⟩

theorem decode_error_of_illegal (h : wordLegal w = false) : ∃ x, decode w = .error x := by
  cases hd : decode w with
  | error x => exact ⟨x, rfl⟩
  | ok i => rw [wordLegal_iff_decode.2 ⟨i, hd⟩] at h; cases h

/-- An illegal word is answered before any state is read (R75, R152). -/
theorem step_illegal {s : State} {rest : List HostAction} (h : s.hostActs = .issue w :: rest)
    (hw : wordLegal w = false) : step s = .next ({ s with hostActs := rest }.raise .illegalCommand) := by
  obtain ⟨x, hx⟩ := decode_error_of_illegal hw
  exact (step_act h).trans (issueWord_illegal hx _)

end

/-! ### The response word -/

theorem toNat_responseWord (r : Response) : r.word.toNat = r.code.toNat * 2 ^ 32 + r.data.toNat := by
  rw [Response.word, BitVec.toNat_append, ← Nat.shiftLeft_add_eq_or_of_lt r.data.isLt, Nat.shiftLeft_eq]

/-! ### The assembler -/

/-- The expansion of UPDS on a built block (R80): its whole effect. -/
theorem runs_updsActs {s : State} {e : Engine} {text : List Byte} {rest : List HostAction} (hE : s.engine = some e)
    (hA : s.hostActs = updsActs text ++ rest) :
    ∃ t, runs text.length s t ∧ t.hostActs = rest ∧
      t.engine = some { e with running := fold e.table e.running text } ∧ t.buflen = s.buflen ∧ t.buf = s.buf := by
  induction text generalizing s e with
  | nil => exact ⟨s, runs_zero s, hA, hE, rfl, rfl⟩
  | cons b text ih =>
    have hb := exec_updb_of (s := { s with hostActs := updsActs text ++ rest }) hE b
    obtain ⟨t, ht, hAt, hEt, hlen, hbuf⟩ := ih
      (s := { s with
        engine := some { e with running := foldByte e.table e.running b }
        rsp := some (.ok 0)
        hostActs := updsActs text ++ rest }) rfl rfl
    exact ⟨t, runs_command hA hb ht, hAt, hEt, hlen, hbuf⟩

theorem expand_dotBuf {a : Word} {m : List Byte} {acts : List HostAction}
    (h : (AsmLine.dotBuf a m).expand = some acts) : a.toNat + m.length ≤ 2 ^ 32 ∧ acts = bufActs a.toNat m := by
  rw [AsmLine.expand] at h
  split at h
  next hm => cases h; exact ⟨hm, rfl⟩
  next => cases h

/-! ### The obligations of the family -/

/-- Settles O2, by the encoder's round trip. -/
theorem decodeEncode : Obligations.DecodeEncode := fun i _ => decode_encode i

/-- Settles O3, by cases on the opcode: each format's check of the reserved bits leaves the word no freedom. -/
theorem encodeDecode : Obligations.EncodeDecode := fun _ _ => encode_of_decode

/-- Settles O4: the row of the decoded command is the only one that matches. -/
theorem decodeFollowsOpcodeMap : Obligations.DecodeFollowsOpcodeMap := by
  refine ⟨?_, fun _ _ => row_of_decode, fun w r hr h => ?_, fun _ => decode_error_of_illegal⟩
  · have hnodup : opcodeRows.Nodup := by decide
    refine List.Pairwise.imp_of_mem (fun hr hq hne w hrw => ?_) hnodup
    obtain ⟨i, hi⟩ := wordLegal_iff_decode.1 (List.any_eq_true.2 ⟨_, hr, hrw⟩)
    refine Bool.eq_false_iff.2 fun hqw => hne ?_
    rw [← row_eq_of_isMatch hr hrw hi, row_eq_of_isMatch hq hqw hi]
  · obtain ⟨i, hi, hrow⟩ := exists_encode_of_isMatch hr h
    exact ⟨i, decode_eq_ok_iff.2 hi, hrow⟩

/-- Settles O5: a word that decodes is packed from the operands, whose fields are numbers. -/
theorem operandFields : Obligations.OperandFields := by
  refine ⟨fun w p h => ?_, fun w n h => ?_, fun w b h => ?_, fun w k h => ?_, fun w off len h => ?_,
    fun i => ⟨encode i, decode_encode i⟩⟩
  · rw [← encode_of_decode h, ← Laws.fieldB_toNat, encode, Laws.fieldB_packWord]
  · rw [← encode_of_decode h, ← Laws.fieldB_toNat, encode, Laws.fieldB_packWord]
  · rw [← encode_of_decode h, ← Laws.imm8_toNat, encode, Laws.imm8_packWord]
  · rw [← encode_of_decode h, ← Laws.imm8_toNat, encode, Laws.imm8_packWord]
  · rw [← encode_of_decode h, ← Laws.fieldA_toNat, ← Laws.fieldB_toNat, encode, Laws.fieldA_packWord,
      Laws.fieldB_packWord]
    exact ⟨rfl, rfl⟩

/-- Settles O6: the masks as arithmetic; the step refuses what matches no row. -/
theorem illegalWords : Obligations.IllegalWords := by
  refine ⟨fun w => ?_, by decide, by decide, by decide, fun s w rest => step_illegal⟩
  have := w.isLt
  rw [← Bool.not_eq_true, wordLegal_iff]
  simp only [List.mem_cons, List.not_mem_nil, or_false]
  omega

/-- Settles O9, by induction on the text. -/
theorem updsPseudo : Obligations.UpdsPseudo :=
  ⟨fun _ => rfl, by decide, by decide, fun _ _ _ _ hE hA => runs_updsActs hE hA⟩

/-- Settles O10, from what the buffer holds after the directive's writes. -/
theorem bufDirective : Obligations.BufDirective := by
  intro s a m acts rest hX hA
  obtain ⟨hm, rfl⟩ := expand_dotBuf hX
  exact ⟨_, runs_bufActs hm hA, rfl, Memory.byteAt_writeAll _ _ _, fun _ => Memory.byteAt_writeAll_outside _ _ _,
    rfl, rfl, rfl⟩

/-- Settles O1, by running the decoder on each word. -/
theorem sampleWordsDecode : Obligations.SampleWordsDecode := by
  unfold Obligations.SampleWordsDecode
  decide

/-- Settles O7. -/
theorem responseWord : Obligations.ResponseWord :=
  ⟨toNat_responseWord, fun _ => ⟨rfl, rfl⟩, fun _ => rfl, rfl, rfl, rfl⟩

/-- Settles O8: the default polynomial is the one written out. -/
theorem buildPseudo : Obligations.BuildPseudo :=
  ⟨rfl, fun _ => rfl, by decide, fun _ => rfl⟩

end Sys2Proof.Machine
end

section
/-! PROOFS. The family 40_table_builder.md. First what every step keeps of a state and its past (O53). -/

namespace Sys2Proof.Machine

section
variable {s t : State} {h : History} {e : Engine} {i : Instr}

/-! ### R37 along a step -/

/-- R37 reads nothing of a state but its engine. -/
theorem HistoryHolds.of_engine_eq (hh : HistoryHolds s h) (ht : t.engine = s.engine) : HistoryHolds t h := by
  obtain ⟨htable, -, hresult, hsince, hrunning⟩ := hh
  have hr : t.result = s.result := congrArg (Option.bind · Engine.result) ht
  exact ⟨fun e hE => htable e (ht ▸ hE), State.built_of_rv, fun r h => hresult r (hr ▸ h),
    fun e r v hE => hsince e r v (ht ▸ hE), fun e hE => hrunning e (ht ▸ hE)⟩

/-- Without an engine R37 says nothing, whatever the past. -/
theorem historyHolds_of_unbuilt (hE : s.engine = none) : HistoryHolds s h := by
  refine ⟨?_, State.built_of_rv, ?_, ?_, ?_⟩ <;> simp [TableOfPoly, State.result, hE]

/-- R37 of a built block, said of its engine. -/
theorem historyHolds_of_engine (hE : s.engine = some e) (htable : e.table = buildTable e.poly)
    (hfinal : ∀ r, e.result = some r →
      ∃ v, h.atFinal = some v ∧ r = fin v ∧ e.running = fold e.table v h.sinceFinal)
    (hrunning : e.running = fold e.table Config.initState h.folded) : HistoryHolds s h := by
  refine ⟨fun e' hE' => ?_, State.built_of_rv, fun r hr => ?_, fun e' r v hE' hr hv => ?_, fun e' hE' => ?_⟩
  · cases hE.symm.trans hE'; exact htable
  · obtain ⟨v, hv, hrv, -⟩ := hfinal r (State.result_of hE ▸ hr)
    exact ⟨v, hv, hrv⟩
  · cases hE.symm.trans hE'
    obtain ⟨v', hv', -, hsince⟩ := hfinal r hr
    cases hv.symm.trans hv'
    exact hsince
  · cases hE.symm.trans hE'; exact hrunning

/-- What R37 (c) says of the engine: its result is the complement of `STATE` at the last FINAL, and the bytes since then
lead from that value to the running state. -/
theorem HistoryHolds.final_of (hh : HistoryHolds s h) (hE : s.engine = some e) {r : Word} (hr : e.result = some r) :
    ∃ v, h.atFinal = some v ∧ r = fin v ∧ e.running = fold e.table v h.sinceFinal := by
  obtain ⟨v, hv, hrv⟩ := hh.result_final r ((State.result_of hE).trans hr)
  exact ⟨v, hv, hrv, hh.since_final e r v hE hr hv⟩

/-- A discard: the running state begins anew and no result is left (R95, R116). -/
theorem historyHolds_start (hE : s.engine = some e) (htable : e.table = buildTable e.poly)
    (hrunning : e.running = Config.initState) (hresult : e.result = none) : HistoryHolds s History.start :=
  historyHolds_of_engine hE htable (by simp [hresult]) hrunning

/-- Bytes are folded (R119). -/
theorem HistoryHolds.foldIn (hh : HistoryHolds s h) (hE : s.engine = some e) {m : List Byte}
    (ht : t.engine = some (e.foldIn m)) : HistoryHolds t (h.fold m) := by
  refine historyHolds_of_engine ht (hh.table e hE) (fun r hr => ?_) ?_
  · obtain ⟨v, hv, hrv, hsince⟩ := hh.final_of hE hr
    exact ⟨v, hv, hrv, by simp [Engine.foldIn, History.fold, fold_append, ← hsince]⟩
  · simp [Engine.foldIn, History.fold, fold_append, ← hh.running e hE]

/-- The complement of `STATE` is published (R142). -/
theorem HistoryHolds.publish (hh : HistoryHolds s h) (hE : s.engine = some e)
    (ht : t.engine = some { e with result := some (fin e.running) }) :
    HistoryHolds t { h with atFinal := some e.running, sinceFinal := [] } := by
  refine historyHolds_of_engine ht (hh.table e hE) (fun r hr => ?_) (hh.running e hE)
  cases hr
  exact ⟨e.running, rfl, rfl, rfl⟩

/-- Every command keeps R37: the commands that need no engine; those that need one and find none; those that find
one. -/
theorem HistoryHolds.command (hh : HistoryHolds s h) (ht : exec i s = .next t) : HistoryHolds t (h.command s i) := by
  cases hn : needsEngine i with
  | false =>
    cases i with
    | buildD | buildP p => cases ht; exact historyHolds_start (State.construct_engine _ _) rfl rfl rfl
    | setlen n => cases ht; exact hh.of_engine_eq rfl
    | reset | updb b | updr off len | final | rdtab k => cases hn
  | true =>
    obtain hE | ⟨e, hE⟩ := Option.eq_none_or_eq_some s.engine
    · rw [exec_unbuilt hn hE] at ht
      cases ht
      exact historyHolds_of_unbuilt hE
    have hb := State.built_of hE
    cases i with
    | buildD | buildP p | setlen n => cases hn
    | reset =>
      rw [exec_reset_of hE] at ht
      cases ht
      simp only [History.command, hb, if_true]
      exact historyHolds_start rfl (hh.table e hE) rfl rfl
    | updb b =>
      rw [exec_updb_of hE] at ht
      cases ht
      simp only [History.command, hb, if_true]
      exact hh.foldIn hE rfl
    | final =>
      rw [exec_final_of hE] at ht
      cases ht
      simp only [History.command, State.running_of hE]
      exact hh.publish hE rfl
    | rdtab k =>
      rw [exec_rdtab_of hE] at ht
      cases ht
      exact hh.of_engine_eq rfl
    | updr off len =>
      cases hr : inRange off len s.buflen with
      | false =>
        rw [exec_updr_outside hE hr] at ht
        cases ht
        simp only [History.command, hr, Bool.false_eq_true, and_false, if_false]
        exact hh.of_engine_eq rfl
      | true =>
        rw [exec_updr_of hE hr] at ht
        cases ht
        simp only [History.command, hb, hr, and_self, if_true]
        exact hh.foldIn hE rfl

/-- The past after a command does not depend on what the host plans next. -/
theorem History.command_set_hostActs (acts : List HostAction) :
    h.command { s with hostActs := acts } i = h.command s i := by
  cases i <;> rfl

/-- The past after a step in which the host issues the word of a command. -/
theorem History.step_issue_of_decode {w : CmdWord} {rest : List HostAction} (hA : s.hostActs = .issue w :: rest)
    (hd : decode w = .ok i) : h.step s = h.command { s with hostActs := rest } i := by
  simp [History.step, History.act, History.command_set_hostActs, hA, hd]

end

/-- Settles O53, by cases on the step: a command keeps R37, and nothing else but power-on reset touches the engine. -/
theorem historyKept : Obligations.HistoryKept := by
  intro s t h hh ht
  obtain ⟨hA, rfl⟩ | ⟨w, rest, i, hA, hd, hi⟩ | ⟨w, rest, x, hA, hd, rfl⟩ | ⟨a, b, rest, hA, rfl⟩ | ⟨rest, hA, rfl⟩ :=
    step_cases ht
  · rwa [History.step, hA]
  · rw [History.step_issue_of_decode hA hd]
    have hh' : HistoryHolds { s with hostActs := rest } h := hh.of_engine_eq rfl
    exact hh'.command hi
  · simp only [History.step, History.act, hA, hd]
    exact hh.of_engine_eq rfl
  · rw [History.step, hA]
    exact hh.of_engine_eq rfl
  · exact historyHolds_of_unbuilt rfl

end Sys2Proof.Machine
end

section
/-! PROOFS. The family 40_table_builder.md, the table: the iteration, the entries, one byte folded (O18, O19, O25,
O26). -/

namespace Sys2Proof.Machine

/-! ### The iteration, its bits and its linearity (R90, R94) -/

section
variable (p : Word)

theorem iter1_getLsbD (v : Word) {k : Nat} (hk : k < 32) :
    (iter1 p v).getLsbD k = ((decide (k < 31) && v.getLsbD (k + 1)) ^^ (v[0] && p.getLsbD k)) := by
  have hshift : (v >>> 1).getLsbD k = (decide (k < 31) && v.getLsbD (k + 1)) := by
    rw [BitVec.getLsbD_ushiftRight, Nat.add_comm]
    by_cases h : k < 31
    · simp [h]
    · simp [h, BitVec.getLsbD_of_ge v (k + 1) (by omega)]
  rw [← hshift, iter1]
  split <;> simp [*]

/-- An even value takes no part of the polynomial. -/
theorem iter1_even {v : Word} (hv : v[0] = false) : iter1 p v = v >>> 1 := by simp [iter1, hv]

theorem iter1_one : iter1 p 1 = p := by simp [iter1]

/-- Each bit of the result is linear in the bits of the value. -/
theorem iter1_xor (a b : Word) : iter1 p (a ^^^ b) = iter1 p a ^^^ iter1 p b := by
  apply BitVec.eq_of_getLsbD_eq
  intro k hk
  simp only [iter1_getLsbD p _ hk, BitVec.getLsbD_xor, BitVec.getElem_xor, Bool.and_xor_distrib_left,
    Bool.and_xor_distrib_right, Bool.xor_assoc, Bool.xor_left_comm]

theorem iterate_iter1_xor (k : Nat) (a b : Word) :
    (iter1 p)^[k] (a ^^^ b) = (iter1 p)^[k] a ^^^ (iter1 p)^[k] b :=
  Function.Semiconj₂.iterate (iter1_xor p) k a b

/-- Where the low `k` bits are 0, `k` iterations are a shift. -/
theorem iterate_iter1_of_low_zero {k : Nat} {v : Word} (hv : ∀ j < k, v.getLsbD j = false) :
    (iter1 p)^[k] v = v >>> k := by
  induction k generalizing v with
  | zero => simp
  | succ k ih =>
    have h0 : v[0] = false := hv 0 k.succ_pos
    rw [Function.iterate_succ_apply, iter1_even p h0, ih, Nat.add_comm, BitVec.shiftRight_add]
    intro j hj
    rw [BitVec.getLsbD_ushiftRight, Nat.add_comm]
    exact hv (j + 1) (by omega)

end

/-- With the polynomial 0 an iteration is a shift whatever the value. -/
theorem iterate_iter1_zero (k : Nat) (v : Word) : (iter1 0#32)^[k] v = v >>> k := by
  induction k generalizing v with
  | zero => simp
  | succ k ih =>
    rw [Function.iterate_succ_apply, ih, Nat.add_comm, BitVec.shiftRight_add]
    simp [iter1]

/-! ### The entries of the table (R91, R92, R94) -/

theorem tabEntry_eq_iterate (p : Word) (i : Byte) : tabEntry p i = (iter1 p)^[8] (i.setWidth 32) :=
  iterN_eq_iterate p 8 _

@[simp] theorem tableAt_buildTable (p : Word) (i : Byte) : tableAt (buildTable p) i = tabEntry p i := by
  simp [tableAt, buildTable]

@[simp] theorem tabEntry_zero (p : Word) : tabEntry p 0#8 = 0#32 := by
  rw [tabEntry_eq_iterate, iterate_iter1_of_low_zero] <;> simp

theorem tabEntry_xor (p : Word) (i j : Byte) : tabEntry p (i ^^^ j) = tabEntry p i ^^^ tabEntry p j := by
  simp only [tabEntry_eq_iterate, BitVec.setWidth_xor, iterate_iter1_xor]

/-- From `2 ^ k`, `k` shifts lead to 1, one iteration to the polynomial, and `7 - k` are left. -/
theorem tabEntry_two_pow (p : Word) {k : Nat} (hk : k < 8) :
    tabEntry p (BitVec.ofNat 8 (2 ^ k)) = (iter1 p)^[7 - k] p := by
  have hlow : ∀ k < 8, ∀ j < k, ((BitVec.ofNat 8 (2 ^ k)).setWidth 32).getLsbD j = false := by decide
  have hone : ∀ k < 8, (BitVec.ofNat 8 (2 ^ k)).setWidth 32 >>> k = 1#32 := by decide
  calc tabEntry p (BitVec.ofNat 8 (2 ^ k))
      = (iter1 p)^[(7 - k) + 1 + k] ((BitVec.ofNat 8 (2 ^ k)).setWidth 32) := by
        rw [tabEntry_eq_iterate, show 7 - k + 1 + k = 8 by omega]
    _ = (iter1 p)^[7 - k] (iter1 p 1) := by
        rw [Function.iterate_add_apply, iterate_iter1_of_low_zero p (hlow k hk), hone k hk,
          Function.iterate_succ_apply]
        rfl
    _ = (iter1 p)^[7 - k] p := by rw [iter1_one]

theorem tabEntry_128 (p : Word) : tabEntry p 128 = p := tabEntry_two_pow p (k := 7) (by decide)

@[simp] theorem tabEntry_zero_poly (i : Byte) : tabEntry 0#32 i = 0#32 := by
  have hi := i.isLt
  rw [tabEntry_eq_iterate, iterate_iter1_zero]
  apply BitVec.eq_of_toNat_eq
  simp [Nat.shiftRight_eq_div_pow]
  omega

theorem TableOfPoly.tableAt_eq {s : State} {e : Engine} (h : TableOfPoly s) (hE : s.engine = some e) (i : Byte) :
    tableAt e.table i = tabEntry e.poly i := by
  rw [h e hE, tableAt_buildTable]

/-! ### One byte folded by the table (R110, R113, R114) -/

section
variable (p s : Word) (b : Byte)

theorem foldByte_buildTable :
    foldByte (buildTable p) s b = (s >>> 8) ^^^ tabEntry p (b ^^^ s.extractLsb' 0 8) := by
  rw [foldByte, tableAt_buildTable]

/-- A byte that equals the low byte of the state selects entry 0, so no polynomial enters. -/
theorem foldByte_lowByte {b : Byte} (h : s.extractLsb' 0 8 = b) : foldByte (buildTable p) s b = s >>> 8 := by
  rw [foldByte_buildTable, h, BitVec.xor_self]
  simp

theorem foldByte_zero_poly : foldByte (buildTable 0) s b = s >>> 8 := by
  simp [foldByte_buildTable]

/-- The state with the byte XORed in, as its three high bytes and the index of the table entry. -/
theorem xor_setWidth_eq_high_xor_index :
    s ^^^ b.setWidth 32 =
      (s ^^^ (s.extractLsb' 0 8).setWidth 32) ^^^ (b ^^^ s.extractLsb' 0 8).setWidth 32 := by
  rw [BitVec.setWidth_xor, BitVec.xor_comm (b.setWidth 32), BitVec.xor_assoc, ← BitVec.xor_assoc (BitVec.setWidth 32 _),
    BitVec.xor_self, BitVec.zero_xor]

/-- Bits of the state without its low byte. -/
theorem getLsbD_xor_lowByte (j : Nat) :
    (s ^^^ (s.extractLsb' 0 8).setWidth 32).getLsbD j = (decide (8 ≤ j) && s.getLsbD j) := by
  by_cases hj : j < 8
  · simp [hj, show j < 32 by omega]
  · simp [show 8 ≤ j by omega]

theorem iterate_iter1_xor_lowByte : (iter1 p)^[8] (s ^^^ (s.extractLsb' 0 8).setWidth 32) = s >>> 8 := by
  rw [iterate_iter1_of_low_zero p fun j hj => by rw [getLsbD_xor_lowByte]; simp; omega]
  apply BitVec.eq_of_getLsbD_eq
  intro j _
  rw [BitVec.getLsbD_ushiftRight, BitVec.getLsbD_ushiftRight, getLsbD_xor_lowByte]
  simp

/-- The eight iterations of the bit-serial method, split by linearity: the high bytes move down, the rest is the table's
entry. -/
theorem foldByte_eq_iterate : foldByte (buildTable p) s b = (iter1 p)^[8] (s ^^^ b.setWidth 32) := by
  rw [xor_setWidth_eq_high_xor_index, iterate_iter1_xor, iterate_iter1_xor_lowByte, ← tabEntry_eq_iterate,
    foldByte_buildTable]

/-- Four bytes FF clear the initial state. -/
theorem fold_four_FF : fold (buildTable p) 0xFFFFFFFF#32 [0xFF#8, 0xFF#8, 0xFF#8, 0xFF#8] = 0 := by
  have h1 : foldByte (buildTable p) 0xFFFFFFFF#32 0xFF#8 = 0x00FFFFFF#32 := foldByte_lowByte p _ rfl
  have h2 : foldByte (buildTable p) 0x00FFFFFF#32 0xFF#8 = 0x0000FFFF#32 := foldByte_lowByte p _ rfl
  have h3 : foldByte (buildTable p) 0x0000FFFF#32 0xFF#8 = 0x000000FF#32 := foldByte_lowByte p _ rfl
  have h4 : foldByte (buildTable p) 0x000000FF#32 0xFF#8 = 0 := foldByte_lowByte p _ rfl
  rw [fold, h1, fold, h2, fold, h3, fold, h4, fold]

end

/-! ### The obligations about the table -/

/-- Settles O18, from the iteration's bits and what the table holds. -/
theorem tableContents : Obligations.TableContents :=
  ⟨fun p v _ hk => iter1_getLsbD p v hk, tabEntry_eq_iterate, tableAt_buildTable⟩

/-- Settles O19, by linearity of the iteration and the shifts of a power of two. -/
theorem tableFacts : Obligations.TableFacts := by
  refine ⟨tabEntry_zero, tabEntry_128, fun s e hE hT => ?_, fun p _ hk => tabEntry_two_pow p hk, tabEntry_xor,
    by decide, by decide, by decide, tabEntry_zero_poly, by decide, by decide, by decide⟩
  rw [hT.tableAt_eq hE, tabEntry_128]

/-- Settles O25, by linearity of the iteration. -/
theorem bitSerial : Obligations.BitSerial := foldByte_eq_iterate

/-- Settles O26: each of these bytes is the low byte of its state. -/
theorem stepFacts : Obligations.StepFacts := by
  refine ⟨fun p => foldByte_lowByte p _ rfl, fold_four_FF, fun p => ?_, fun p => foldByte_lowByte p 0 rfl,
    foldByte_zero_poly⟩
  have h : fold (buildTable p) Config.initState [0xFF#8, 0xFF#8, 0xFF#8, 0xFF#8] = 0 := fold_four_FF p
  rw [crc, h]
  rfl

end Sys2Proof.Machine
end

section
/-! PROOFS. The family 40_table_builder.md, its commands: construction and RDTAB (O20, O21, O22, O23); what a
construction and a RESET make of the past (O28, O57). -/

namespace Sys2Proof.Machine

/-! ### Reserved bits, and the words of the commands (R71, R75) -/

section
variable {w : CmdWord} {o : Byte}

theorem formatZ_reserved {i : Instr} (ho : opcodeOf w = o) (h : w ≠ packWord o 0 0) :
    formatZ w i = .error .reservedBits := by
  rw [formatZ, if_neg]
  rintro ⟨hA, hB⟩
  exact h (by rw [← Laws.packWord_fields w, ho, hA, hB])

theorem formatW_reserved {f : Word → Instr} (h : fieldA w ≠ 0) : formatW w f = .error .reservedBits :=
  if_neg h

theorem formatY_reserved {f : Byte → Instr} (h : fieldA w ≠ 0 ∨ fieldBHigh w ≠ 0) :
    formatY w f = .error .reservedBits :=
  if_neg fun ⟨hA, hB⟩ => h.elim (· hA) (· hB)

/-- In format Y everything above `imm8` but the opcode is zero. -/
theorem packWord_setWidth (o b : Byte) : packWord o 0 (b.setWidth 32) = (o ++ 0#56) ++ b := by
  have hb := b.isLt
  apply BitVec.eq_of_toNat_eq
  rw [Laws.packWord_toNat, BitVec.toNat_append, ← Nat.shiftLeft_add_eq_or_of_lt hb, BitVec.toNat_append]
  simp [Nat.shiftLeft_eq]
  omega

end

/-! ### The commands that need an engine, and power-on reset (R153, R185) -/

section
variable {s : State} {i : Instr}

theorem needsEngine_iff : needsEngine i = true ↔
    i = .reset ∨ (∃ b, i = .updb b) ∨ (∃ off len, i = .updr off len) ∨ i = .final ∨ ∃ k, i = .rdtab k := by
  cases i <;> simp [needsEngine]

theorem exec_of_built_eq_false (hi : needsEngine i = true) (hb : s.built = false) :
    exec i s = .next (s.raise .notConstructed) :=
  exec_unbuilt hi (Option.not_isSome_iff_eq_none.1 (Bool.eq_false_iff.1 hb))

/-- While `BUILT` is 0, NotConstructed is the answer to exactly the commands that need an engine: the others answer OK. -/
theorem exec_unbuilt_iff (hE : s.engine = none) : exec i s = .next (s.raise .notConstructed) ↔ needsEngine i = true := by
  refine ⟨fun h => ?_, fun hi => exec_unbuilt hi hE⟩
  cases i with
  | reset | updb b | updr off len | final | rdtab k => rfl
  | buildD | buildP p | setlen n =>
    injection h with h
    have hrsp := congrArg State.rsp h
    simp at hrsp

/-- With `BUFLEN` 0 no sub-range but the empty one at 0 is in range (R118). -/
theorem inRange_zero_buflen {off len : Word} (h : (off, len) ≠ (0, 0)) : inRange off len 0 = false := by
  refine Bool.eq_false_iff.2 fun hr => h ?_
  have hsum : off.toNat + len.toNat ≤ 0 := inRange_iff.1 hr
  have hoff : off = 0 := BitVec.eq_of_toNat_eq (by simp; omega)
  have hlen : len = 0 := BitVec.eq_of_toNat_eq (by simp; omega)
  rw [hoff, hlen]

/-! ### No command reads what the host plans next (R191) -/

theorem exec_set_hostActs {t : State} (acts : List HostAction) (h : exec i s = .next t) :
    exec i { s with hostActs := acts } = .next { t with hostActs := acts } := by
  cases i with
  | buildD | buildP p | setlen n => cases h; rfl
  | reset | updb b | final | rdtab k =>
    obtain ⟨hE, rfl⟩ | ⟨e, hE, hf⟩ := State.withEngine_cases h
    · exact exec_unbuilt (s := { s with hostActs := acts }) rfl hE
    · cases hf
      exact State.withEngine_some (s := { s with hostActs := acts }) hE _
  | updr off len =>
    obtain ⟨hE, rfl⟩ | ⟨e, hE, -⟩ := State.withEngine_cases h
    · exact exec_unbuilt (s := { s with hostActs := acts }) rfl hE
    cases hr : inRange off len s.buflen with
    | false =>
      rw [exec_updr_outside hE hr] at h
      cases h
      exact exec_updr_outside (s := { s with hostActs := acts }) hE hr
    | true =>
      rw [exec_updr_of hE hr] at h
      cases h
      exact exec_updr_of (s := { s with hostActs := acts }) hE hr

/-- Commands run to the same end whatever the host plans after them. -/
theorem execAll_set_hostActs (cs : List Instr) (s : State) (acts : List HostAction) :
    ∃ u, execAll cs s = .next u ∧ execAll cs { s with hostActs := acts } = .next { u with hostActs := acts } := by
  induction cs generalizing s with
  | nil => exact ⟨s, rfl, rfl⟩
  | cons i cs ih =>
    obtain ⟨t, ht⟩ := exec_next i s
    simp only [execAll, ht, exec_set_hostActs acts ht]
    exact ih t

/-- After RESET the engine is the one a construction with its polynomial gives (R116, R117). -/
theorem exec_reset_eq_freshEngine {e : Engine} (hE : s.engine = some e) (hT : TableOfPoly s) :
    exec .reset s = .next ((s.setEngine (freshEngine e.poly)).respond 0) := by
  rw [exec_reset_of hE, freshEngine, ← hT e hE]

end

/-! ### The obligations of the family -/

/-- Settles O28: after RESET the two states differ in the host's plans alone, which no command reads. -/
theorem resetIndependence : Obligations.ResetIndependence := by
  intro s₁ s₂ e₁ e₂ hE₁ hE₂ hT₁ hT₂ hpoly hbuflen hbuf hdraws
  have hsame : (s₂.setEngine (freshEngine e₂.poly)).respond 0 =
      { (s₁.setEngine (freshEngine e₁.poly)).respond 0 with hostActs := s₂.hostActs } := by
    simp [State.setEngine, State.respond, hpoly, hbuflen, hbuf, hdraws]
  have hreset₂ := exec_reset_eq_freshEngine hE₂ hT₂
  rw [hsame] at hreset₂
  refine ⟨_, _, exec_reset_eq_freshEngine hE₁ hT₁, hreset₂, rfl, fun cs => ?_⟩
  obtain ⟨u, hu₁, hu₂⟩ := execAll_set_hostActs cs ((s₁.setEngine (freshEngine e₁.poly)).respond 0) s₂.hostActs
  exact ⟨u, _, hu₁, hu₂, rfl, rfl, rfl, rfl⟩

/-- Settles O57: power-on reset leaves no engine and `BUFLEN` 0, and construction keeps `BUFLEN`. -/
theorem bootOrder : Obligations.BootOrder := by
  refine ⟨fun s i => (exec_unbuilt_iff rfl).trans needsEngine_iff, fun s t p off len h hne => ?_, fun s t p h => ?_⟩
  · cases h
    exact exec_updr_outside (State.construct_engine _ _) (inRange_zero_buflen hne)
  · cases h
    rfl

/-- Settles O20: a word of the opcode that is not BUILD.D's has a reserved bit set; construction reads no state. -/
theorem buildDefault : Obligations.BuildDefault := by
  refine ⟨rfl, fun w ho h => ?_, fun _ => rfl, fun s t h => ?_, fun _ => rfl⟩
  · rw [decode, ho]
    exact formatZ_reserved ho h
  · cases h
    exact ⟨rfl, rfl, rfl⟩

/-- Settles O21; with the polynomial 0 every entry of the table is 0. -/
theorem buildCustom : Obligations.BuildCustom := by
  refine ⟨fun _ => rfl, fun w ho h => ?_, fun _ _ => rfl, fun p s t h => ?_, fun s b => ⟨fun i => ?_, ?_⟩⟩
  · rw [decode, ho]
    exact formatW_reserved h
  · cases h
    exact ⟨rfl, rfl⟩
  · exact (tableAt_buildTable 0 i).trans (tabEntry_zero_poly i)
  · exact foldByte_zero_poly s b

/-- Settles O22: entries 0 and 128 of a table of its polynomial are 0 and the polynomial, by R94. -/
theorem readTable : Obligations.ReadTable := by
  refine ⟨fun i => packWord_setWidth 0x08 i, fun w ho h => ?_, fun s i hb => exec_of_built_eq_false rfl hb,
    fun s e i hE => exec_rdtab_of hE i, fun s e hE hT => ⟨?_, ?_⟩⟩
  · rw [decode, ho]
    exact formatY_reserved h
  · rw [exec_rdtab_of hE, hT.tableAt_eq hE]
    exact congrArg (fun d => Host.Outcome.next (s.respond d)) (tabEntry_zero e.poly)
  · rw [exec_rdtab_of hE, hT.tableAt_eq hE, tabEntry_128]
    rfl

/-- Settles O23: RDTAB reads the table the construction has just built. -/
theorem tableReadBack : Obligations.TableReadBack := by
  intro s p i
  refine ⟨_, exec_buildP p s, ?_⟩
  rw [exec_rdtab_of (State.construct_engine s p) i, freshEngine, tableAt_buildTable, tabEntry_eq_iterate]
  rfl

end Sys2Proof.Machine
end

section
/-! PROOFS. The family 41_state_update.md: UPDR in chunks (O24), over a written sub-range (O31) and of no length (O34),
its range check (O35); RESET (O27), SETLEN (O29), UPDB (O30). -/

namespace Sys2Proof.Machine

/-! ### The range check (R125) -/

section
variable {off len n : Word}

theorem inRange_eq_false_iff : inRange off len n = false ↔ n.toNat < off.toNat + len.toNat := by
  rw [← Bool.not_eq_true, inRange_iff, Nat.not_le]

/-- The test in 32 bits: the difference does not wrap, since `offset <= BUFLEN` is asked first. -/
theorem inRange_iff_le_sub : inRange off len n = true ↔ off ≤ n ∧ len ≤ n - off := by
  rw [inRange_iff, BitVec.le_def]
  constructor
  · intro h
    have hoff : off.toNat ≤ n.toNat := by omega
    refine ⟨hoff, ?_⟩
    rw [BitVec.le_def, BitVec.toNat_sub_of_le hoff]
    omega
  · rintro ⟨hoff, hlen⟩
    rw [BitVec.le_def, BitVec.toNat_sub_of_le hoff] at hlen
    omega

end

/-! ### UPDR, its error and its effect (R123, R124); RESET again (R116) -/

section
variable {s : State} {e : Engine} {off len : Word}

theorem exec_updr_rangeError (hE : s.engine = some e) (h : s.buflen.toNat < off.toNat + len.toNat) :
    exec (.updr off len) s = .next (s.raise .rangeError) :=
  exec_updr_outside hE (inRange_eq_false_iff.2 h)

/-- UPDR over a sub-range the host has written folds its bytes and draws nothing. -/
theorem exec_updr_of_written {bs : List Byte} (hE : s.engine = some e)
    (hr : inRange off len s.buflen = true) (hlen : len.toNat = bs.length)
    (h : ∀ k (hk : k < bs.length), s.buf.byteAt (off.toNat + k) = some bs[k]) :
    exec (.updr off len) s = .next ((s.setEngine (e.foldIn bs)).respond 0) := by
  rw [exec_updr_of hE hr, State.subRange_of_written hlen h]

theorem State.setEngine_self (hE : s.engine = some e) : s.setEngine e = s := by
  rw [State.setEngine, ← hE]

/-- RESET where the state is the initial one and no result is left changes nothing but the answer (R116). -/
theorem exec_reset_of_discarded (hE : s.engine = some e) (hrunning : e.running = Config.initState)
    (hresult : e.result = none) : exec .reset s = .next (s.respond 0) := by
  rw [exec_reset_of hE, ← hrunning, ← hresult, State.setEngine_self hE]

/-! ### UPDR in chunks (R111, R112) -/

theorem Engine.foldIn_append (e : Engine) (m₁ m₂ : List Byte) : e.foldIn (m₁ ++ m₂) = (e.foldIn m₁).foldIn m₂ := by
  simp [Engine.foldIn, fold_append]

theorem execAll_cons {i : Instr} {t : State} (h : exec i s = .next t) (is : List Instr) :
    execAll (i :: is) s = execAll is t := by
  rw [execAll, h]

/-- A sub-range is its first part and then the rest, where neither its start nor its length wraps. -/
theorem State.subRange_add {k₁ k₂ : Word} (hoff : (off + k₁).toNat = off.toNat + k₁.toNat)
    (hlen : (k₁ + k₂).toNat = k₁.toNat + k₂.toNat) :
    s.subRange off (k₁ + k₂) =
      ((s.subRange off k₁).1 ++ (bufReads s.buf (off + k₁).toNat k₂.toNat (s.subRange off k₁).2).1,
        (bufReads s.buf (off + k₁).toNat k₂.toNat (s.subRange off k₁).2).2) := by
  rw [State.subRange, hlen, bufReads_add, hoff]
  rfl

/-- Two UPDRs of adjacent parts are the UPDR of the whole: the second goes on from the engine and the draws the first
leaves. -/
theorem exec_updr_add {k₁ k₂ : Word} (hE : s.engine = some e)
    (h : off.toNat + k₁.toNat + k₂.toNat ≤ s.buflen.toNat) :
    exec (.updr off (k₁ + k₂)) s = execAll [.updr off k₁, .updr (off + k₁) k₂] s := by
  have hmax := s.buflen.isLt
  have hoff : (off + k₁).toNat = off.toNat + k₁.toNat := BitVec.toNat_add_of_lt (by omega)
  have hlen : (k₁ + k₂).toNat = k₁.toNat + k₂.toNat := BitVec.toNat_add_of_lt (by omega)
  have hwhole := exec_updr_of hE (off := off) (len := k₁ + k₂) (inRange_iff.2 (by omega))
  have hfirst := exec_updr_of hE (off := off) (len := k₁) (inRange_iff.2 (by omega))
  have hsecond := exec_updr_of (s := ({ s with draws := (s.subRange off k₁).2 }.setEngine
    (e.foldIn (s.subRange off k₁).1)).respond 0) rfl (off := off + k₁) (len := k₂)
    (inRange_iff.2 (by simp only [State.respond_buflen, State.setEngine_buflen]; omega))
  rw [execAll_cons hfirst, execAll_cons hsecond, hwhole, State.subRange_add hoff hlen, Engine.foldIn_append]
  rfl

/-- One UPDB per byte folds the bytes in order. -/
theorem execAll_updb (hE : s.engine = some e) (m : List Byte) :
    ∃ u, execAll (m.map Instr.updb) s = .next u ∧ u.engine = some (e.foldIn m) := by
  induction m generalizing s e with
  | nil => exact ⟨s, rfl, hE⟩
  | cons b m ih =>
    rw [List.map_cons, execAll_cons (exec_updb_of hE b)]
    exact ih (e := e.foldIn [b]) rfl

end

/-- The index of R110 is the byte against the low byte of the state. -/
theorem foldByte_eq (t : Table) (s : Word) (b : Byte) :
    foldByte t s b = (s >>> 8) ^^^ t[(b ^^^ s.setWidth 8).toNat]'(b ^^^ s.setWidth 8).isLt := by
  rw [foldByte, ← BitVec.setWidth_eq_extractLsb' (by decide), tableAt]

/-! ### The obligations of the family -/

/-- Settles O24: without an engine both sides answer NotConstructed; with one, the bytes and the draws of the whole
sub-range are those of its parts, one after the other. -/
theorem chunkInvariance : Obligations.ChunkInvariance := by
  refine ⟨fold_append, fun s off k₁ k₂ h => ?_, fun s e off len hE hr => ?_⟩
  · obtain hE | ⟨e, hE⟩ := Option.eq_none_or_eq_some s.engine
    · have hfirst := exec_unbuilt (i := .updr off k₁) rfl hE
      have hsecond := exec_unbuilt (s := s.raise .notConstructed) (i := .updr (off + k₁) k₂) rfl hE
      rw [exec_unbuilt rfl hE, execAll_cons hfirst, execAll_cons hsecond]
      rfl
    · exact exec_updr_add hE h
  · obtain ⟨u, hu, hEu⟩ := execAll_updb hE (s.subRange off len).1
    exact ⟨_, u, exec_updr_of hE hr, hu, hEu⟩

/-- Settles O31: the bytes folded are those the host wrote. -/
theorem updateRange : Obligations.UpdateRange := by
  refine ⟨fun _ _ => rfl, fun w ho => ?_, fun s off len hb => exec_of_built_eq_false rfl hb,
    fun s e off len hE h => exec_updr_rangeError hE h, fun s e off len hE h hw => ?_⟩
  · rw [decode, ho]
    exact ⟨_, _, rfl⟩
  · obtain ⟨bs, hlen, hbs⟩ := hw.exists_bytes
    refine ⟨bs, hlen.symm, fun k hk => ?_, ?_⟩
    · have hk' : k < bs.length := hlen ▸ hk
      rw [hbs k hk', List.getElem?_eq_getElem hk']
    · rw [exec_updr_of_written hE (inRange_iff.2 h) hlen hbs, Engine.foldIn, fold_eq_foldl]
      rfl

/-- Settles O34: the empty sub-range holds no byte, and folding none leaves the engine. -/
theorem zeroLengthUpdate : Obligations.ZeroLengthUpdate := by
  refine ⟨fun s off hb h => ?_, fun s off hb h => ?_, fun s off hb => exec_of_built_eq_false rfl hb⟩
  · obtain ⟨e, hE⟩ := State.built_iff.1 hb
    have hr : inRange off 0 s.buflen = true := inRange_iff.2 (by simpa using h)
    have hnone : e.foldIn [] = e := rfl
    rw [exec_updr_of_written (bs := []) hE hr rfl (by simp), hnone, State.setEngine_self hE]
    rfl
  · obtain ⟨e, hE⟩ := State.built_iff.1 hb
    exact exec_updr_rangeError hE h

/-- Settles O35: `BUFLEN` is below 2^32, so what is at most `BUFLEN` does not wrap. -/
theorem rangeCheckArithmetic : Obligations.RangeCheckArithmetic := by
  refine ⟨fun _ _ _ => inRange_iff, fun _ _ _ => inRange_iff_le_sub, fun off len n k hr hk => ?_, by decide⟩
  have hsum := inRange_iff.1 hr
  have hmax := n.isLt
  omega

/-- Settles O27: RESET writes constants, so a second one, or one after a construction, finds them written. -/
theorem resetCommand : Obligations.ResetCommand := by
  refine ⟨rfl, fun w ho h => ?_, fun s hb => exec_of_built_eq_false rfl hb, fun s e hE => exec_reset_of hE,
    fun s t h => ?_, fun s t p h => ?_⟩
  · rw [decode, ho]
    exact formatZ_reserved ho h
  · obtain ⟨hE, rfl⟩ | ⟨e, -, hf⟩ := State.withEngine_cases h
    · exact ⟨State.rv_of_unbuilt hE, exec_unbuilt rfl hE⟩
    · cases hf
      exact ⟨rfl, exec_reset_of_discarded rfl rfl rfl⟩
  · cases h
    exact exec_reset_of_discarded (State.construct_engine s p) rfl rfl

/-- Settles O29: after SETLEN 0 the range check compares the sum with 0. -/
theorem setLength : Obligations.SetLength := by
  refine ⟨fun _ => rfl, fun w ho h => ?_, fun _ _ => rfl, fun s t off len h hb hpos => ?_⟩
  · rw [decode, ho]
    exact formatW_reserved h
  · obtain ⟨e, hE⟩ := State.built_iff.1 hb
    cases h
    exact exec_updr_rangeError hE hpos

/-- Settles O30: the shift and the index are both of the old state. -/
theorem updateByte : Obligations.UpdateByte := by
  refine ⟨fun b => packWord_setWidth 0x04 b, fun w ho h => ?_, fun s b hb => exec_of_built_eq_false rfl hb,
    fun s e b hE => ?_⟩
  · rw [decode, ho]
    exact formatY_reserved h
  · rw [exec_updb_of hE, foldByte_eq]
    rfl

end Sys2Proof.Machine
end


section
/-! PROOFS. The family 42_finalize.md: the complement (O36, O37), FINAL (O38), FINAL again (O39), on no bytes (O40) and
with updates behind it (O41). -/

namespace Sys2Proof.Machine

/-! ### The complement (R140, R141) -/

section
variable (v : Word)

theorem fin_getLsbD {k : Nat} (hk : k < 32) : (fin v).getLsbD k = !v.getLsbD k := by
  simp [fin, hk]

theorem fin_eq_xor : fin v = v ^^^ 0xFFFFFFFF#32 := BitVec.xor_allOnes.symm

theorem fin_toNat : (fin v).toNat = 0xFFFFFFFF - v.toNat := BitVec.toNat_not

@[simp] theorem fin_fin : fin (fin v) = v := BitVec.not_not

end

theorem fin_initState : fin Config.initState = 0 := by decide

/-! ### FINAL (R142, R143, R144) -/

section
variable {s : State} {e : Engine}

/-- FINAL where the complement of `STATE` is published already changes nothing but the answer (R143). -/
theorem exec_final_of_published (hE : s.engine = some e) (hresult : e.result = some (fin e.running)) :
    exec .final s = .next (s.respond (fin e.running)) := by
  rw [exec_final_of hE, ← hresult, State.setEngine_self hE]

/-- FINAL answers 0 where `STATE` is the initial one (R144). -/
theorem exec_final_of_initState (hE : s.engine = some e) (hrunning : e.running = Config.initState) :
    ∃ u, exec .final s = .next u ∧ u.rsp = some (.ok 0) := by
  obtain ⟨u, hu, hrsp, -⟩ := exec_final_published hE
  rw [hrunning, fin_initState] at hrsp
  exact ⟨u, hu, hrsp⟩

/-- Where no byte has been folded since the last FINAL, the published value is the complement of `STATE`. -/
theorem HistoryHolds.result_eq_fin_running {h : History} (hh : HistoryHolds s h) (hE : s.engine = some e) {r : Word}
    (hr : e.result = some r) (hsince : h.sinceFinal = []) : r = fin e.running := by
  obtain ⟨v, -, hrv, hrunning⟩ := hh.final_of hE hr
  rw [hsince] at hrunning
  rw [hrv, hrunning, fold]

/-! ### Updates after FINAL (R145) -/

theorem State.outputs_of (hE : s.engine = some e) : s.outputs = ⟨true, e.result.isSome, e.result⟩ := by
  simp [State.outputs, State.rv, State.built_of hE, State.result_of hE]

/-- A command that, after FINAL, folds the bytes `m` into the engine FINAL left: they go into the `STATE` FINAL found,
the published value and the outputs stay, and the next FINAL answers for those bytes too. -/
theorem foldIn_after_final (hE : s.engine = some e) {i : Instr} {m : List Byte}
    (hi : ∀ t, exec .final s = .next t → ∀ e', t.engine = some e' →
      ∃ u, exec i t = .next u ∧ u.engine = some (e'.foldIn m)) :
    ∃ t u v, exec .final s = .next t ∧ exec i t = .next u ∧ exec .final u = .next v ∧
      u.result = some (fin e.running) ∧ u.outputs = t.outputs ∧
      u.running = some (fold e.table e.running m) ∧ v.rsp = some (.ok (fin (fold e.table e.running m))) := by
  obtain ⟨u, hu, hEu⟩ := hi _ (exec_final_of hE) _ rfl
  have hout := State.outputs_of hEu
  exact ⟨_, u, _, exec_final_of hE, hu, exec_final_of hEu, State.result_of hEu, hout, State.running_of hEu, rfl⟩

end

/-! ### The obligations of the family -/

/-- Settles O36, from the library's facts about `~~~`. -/
theorem complement : Obligations.Complement :=
  ⟨fun v _ hk => fin_getLsbD v hk, fin_eq_xor, fin_toNat⟩

/-- Settles O37: the answer of FINAL is the complement of `STATE`, so its complement is `STATE`. -/
theorem complementInverse : Obligations.ComplementInverse := by
  refine ⟨fin_fin, fin_initState, rfl, fun s t v d hv h hd => ?_⟩
  obtain ⟨e, hE, rfl⟩ := Option.map_eq_some_iff.1 hv
  rw [exec_final_of hE] at h
  cases h
  cases hd
  exact (fin_fin e.running).symm

/-- Settles O38, from what FINAL does to the engine and that the complement is the XOR with all ones. -/
theorem finalCommand : Obligations.FinalCommand := by
  refine ⟨rfl, fun w ho h => ?_, fun s hb => exec_of_built_eq_false rfl hb, fun s e hE => ?_, fun s t v hv h => ?_⟩
  · rw [decode, ho]
    exact formatZ_reserved ho h
  · rw [exec_final_of hE, fin_eq_xor]
    rfl
  · refine ⟨(exec_final_running h).trans hv, ?_⟩
    obtain ⟨e, hE, rfl⟩ := Option.map_eq_some_iff.1 hv
    obtain ⟨t', ht', -, hout⟩ := exec_final_published hE
    cases h.symm.trans ht'
    rw [hout, fin_eq_xor]

/-- Settles O39: FINAL leaves `STATE`, so the complement a second one publishes is there already; and so it is, by R37
(c), as long as no byte has been folded since. -/
theorem finalIdempotent : Obligations.FinalIdempotent := by
  refine ⟨fun s t h => ?_, fun s h r hh hr hsince => ?_⟩
  · obtain ⟨hE, rfl⟩ | ⟨e, -, hf⟩ := State.withEngine_cases h
    · exact exec_unbuilt rfl hE
    · cases hf
      exact exec_final_of_published (e := { e with result := some (fin e.running) }) rfl rfl
  · obtain ⟨e, hE, hres⟩ := Option.bind_eq_some_iff.1 hr
    obtain rfl := hh.result_eq_fin_running hE hres hsince
    exact exec_final_of_published hE hres

/-- Settles O40: RESET and construction leave the initial state, and by R37 (d) it is there until a byte is folded. -/
theorem emptyInput : Obligations.EmptyInput := by
  refine ⟨fun s t hb h => ?_, fun s t p h => ?_, fun s t h => ?_, fun s h hh hb hfolded => ?_⟩
  · obtain ⟨e, hE⟩ := State.built_iff.1 hb
    rw [exec_reset_of hE] at h
    cases h
    exact exec_final_of_initState rfl rfl
  · cases h
    exact exec_final_of_initState (State.construct_engine s p) rfl
  · cases h
    exact exec_final_of_initState (State.construct_engine s _) rfl
  · obtain ⟨e, hE⟩ := State.built_iff.1 hb
    have hrunning := hh.running e hE
    rw [hfolded, fold] at hrunning
    exact exec_final_of_initState hE hrunning

/-- Settles O41: FINAL leaves the running state, the buffer and `BUFLEN`, so UPDB and UPDR fold the bytes they would
have folded without it. -/
theorem updateAfterFinal : Obligations.UpdateAfterFinal := by
  refine ⟨fun s e b hE => foldIn_after_final hE fun t _ e' hE' => ⟨_, exec_updb_of hE' b, rfl⟩,
    fun s e off len hE hr => foldIn_after_final hE fun t ht e' hE' => ?_⟩
  rw [exec_final_of hE] at ht
  cases ht
  exact ⟨_, exec_updr_of hE' hr, rfl⟩

end Sys2Proof.Machine
end

section
/-! PROOFS. The family 60_exceptions.md: the causes of RangeError (O43) and NotConstructed (O44), errors change nothing
(O45), their order (O46); the block at rest between commands (O14). -/

namespace Sys2Proof.Machine

section
variable {s t : State} {i : Instr}

/-! ### The causes of an error (R151, R153) -/

/-- Every error a command answers has one of two causes: there is no engine, or there is one and UPDR's sub-range ends
beyond `BUFLEN`. `BUILT` tells them apart. -/
theorem exec_error_cases {x : Err} (h : exec i s = .next t) (hx : t.rsp = some (.error x)) :
    (x = .notConstructed ∧ s.built = false ∧ needsEngine i = true) ∨
    (x = .rangeError ∧ s.built = true ∧ ∃ off len, i = .updr off len ∧ s.buflen.toNat < off.toNat + len.toNat) := by
  cases i with
  | buildD | buildP p | setlen n => cases h; cases hx
  | reset | updb b | final | rdtab k =>
    obtain ⟨hE, rfl⟩ | ⟨e, -, hf⟩ := State.withEngine_cases h
    · cases hx; exact .inl ⟨rfl, State.built_eq_false hE, rfl⟩
    · cases hf; cases hx
  | updr off len =>
    obtain ⟨hE, rfl⟩ | ⟨e, hE, -⟩ := State.withEngine_cases h
    · cases hx; exact .inl ⟨rfl, State.built_eq_false hE, rfl⟩
    cases hr : inRange off len s.buflen with
    | true => rw [exec_updr_of hE hr] at h; cases h; cases hx
    | false =>
      rw [exec_updr_outside hE hr] at h; cases h; cases hx
      exact .inr ⟨rfl, State.built_of hE, off, len, rfl, inRange_eq_false_iff.1 hr⟩

theorem exec_notConstructed_iff (h : exec i s = .next t) :
    t.rsp = some (.error .notConstructed) ↔ s.built = false ∧ needsEngine i = true := by
  constructor
  · intro hx
    obtain ⟨-, hb, hi⟩ | ⟨hne, -⟩ := exec_error_cases h hx
    · exact ⟨hb, hi⟩
    · cases hne
  · rintro ⟨hb, hi⟩
    rw [exec_of_built_eq_false hi hb] at h
    cases h
    rfl

/-- The range check answers for itself on a built block (R123). -/
theorem exec_updr_rangeError_of_built {off len : Word} (hb : s.built = true)
    (hlen : s.buflen.toNat < off.toNat + len.toNat) : exec (.updr off len) s = .next (s.raise .rangeError) := by
  obtain ⟨e, hE⟩ := State.built_iff.1 hb
  exact exec_updr_rangeError hE hlen

theorem exec_rangeError_iff (h : exec i s = .next t) :
    t.rsp = some (.error .rangeError) ↔
      s.built = true ∧ ∃ off len, i = .updr off len ∧ s.buflen.toNat < off.toNat + len.toNat := by
  constructor
  · intro hx
    obtain ⟨hne, -⟩ | ⟨-, hb, hi⟩ := exec_error_cases h hx
    · cases hne
    · exact ⟨hb, hi⟩
  · rintro ⟨hb, off, len, rfl, hlen⟩
    rw [exec_updr_rangeError_of_built hb hlen] at h
    cases h
    rfl

/-! ### What an error leaves behind (R158) -/

/-- No command reads the last answer: each overwrites it. -/
theorem exec_set_rsp (i : Instr) (s : State) (r : Option Response) : exec i { s with rsp := r } = exec i s := by
  cases i <;> rfl

theorem exec_raise (i : Instr) (s : State) (x : Err) : exec i (s.raise x) = exec i s := exec_set_rsp i s _

end

/-! ### The obligations of the family -/

/-- Settles O43, from the causes of an error and that an error changes nothing but the answer. -/
theorem rangeErrorExactly : Obligations.RangeErrorExactly :=
  ⟨by decide, fun _ _ _ h => ⟨exec_rangeError_iff h, eq_raise_of_exec_error h⟩⟩

/-- Settles O44, from the causes of an error; `BUILT` is written by construction only, which sets it. -/
theorem notConstructedExactly : Obligations.NotConstructedExactly := by
  refine ⟨by decide, fun i s t h => ⟨?_, eq_raise_of_exec_error h⟩, fun i s t h hb => ?_⟩
  · rw [← needsEngine_iff]
    exact exec_notConstructed_iff h
  · obtain ⟨hbuilt, -⟩ := exec_flags h
    rw [hbuilt, hb, Bool.true_or]

/-- Settles O45: the state after an error is the one before with the answer in place, which no command reads. -/
theorem errorsChangeNothing : Obligations.ErrorsChangeNothing := by
  intro i s t x h hx
  obtain rfl := eq_raise_of_exec_error h hx
  exact ⟨rfl, State.raise_outputs x, rfl, fun j => exec_raise j s x⟩

/-- Settles O46: decode comes before the command, and a command that needs an engine looks for it first. -/
theorem errorPriority : Obligations.ErrorPriority := by
  refine fun s w rest hA => ⟨step_illegal hA, fun off len hd hb => ?_, fun off len hd hb hlen => ?_⟩
  · rw [step_issue_of_decode hA hd]
    exact exec_of_built_eq_false rfl hb
  · rw [step_issue_of_decode hA hd]
    exact exec_updr_rangeError_of_built hb hlen

/-- Settles O14: a step is one host action, and there is none. -/
theorem idleHolds : Obligations.IdleHolds := fun _ => step_idle

end Sys2Proof.Machine
end

section
/-! PROOFS. The family 70_reset_and_hazards.md: what power-on reset leaves (O16), and R37 where a run begins (O54). -/

namespace Sys2Proof.Machine

/-! ### A block without an engine (R35, R38) -/

section
variable {s : State}

theorem State.result_eq_none (hE : s.engine = none) : s.result = none := by rw [State.result, hE, Option.bind_none]

theorem State.rv_eq_false (hE : s.engine = none) : s.rv = false := by
  rw [State.rv, State.result_eq_none hE, Option.isSome_none]

theorem State.outputs_of_unbuilt (hE : s.engine = none) : s.outputs = ⟨false, false, none⟩ := by
  rw [State.outputs, State.built_eq_false hE, State.rv_eq_false hE, State.result_eq_none hE]

/-- Every element of R180, from the two fields of the state that hold them. -/
theorem State.power_on_elements (hE : s.engine = none) (hlen : s.buflen = 0) :
    s.built = false ∧ s.rv = false ∧ s.buflen = 0 ∧ s.poly = none ∧ s.table = none ∧ s.running = none ∧
      s.result = none ∧ s.outputs = ⟨false, false, none⟩ := by
  refine ⟨State.built_eq_false hE, State.rv_eq_false hE, hlen, ?_, ?_, ?_, State.result_eq_none hE,
    State.outputs_of_unbuilt hE⟩
  · rw [State.poly, hE, Option.map_none]
  · rw [State.table, hE, Option.map_none]
  · rw [State.running, hE, Option.map_none]

end

/-- The step in which the host asserts power-on reset (R180, R195). -/
theorem step_powerOn {s : State} {rest : List HostAction} (h : s.hostActs = .powerOn :: rest) :
    step s = .next { s with hostActs := rest }.powerOnReset :=
  step_act h

/-! ### The obligations of the family -/

/-- Settles O16: power-on reset and the machine's reset state have no engine and `BUFLEN` 0. -/
theorem powerOnResetState : Obligations.PowerOnResetState :=
  ⟨fun _ _ h => ⟨_, step_powerOn h,
      State.power_on_elements (State.powerOnReset_engine _) (State.powerOnReset_buflen _)⟩,
    State.power_on_elements rfl rfl⟩

/-- Settles O54: R37 asks nothing of a block without an engine. -/
theorem historyAtReset : Obligations.HistoryAtReset := historyHolds_of_unbuilt rfl

end Sys2Proof.Machine
end

section
/-! PROOFS. The family other: a power-on reset that cuts a command short (O17). -/

namespace Sys2Proof.Machine

/-- Power-on reset overwrites all of the block, so what it leaves depends only on what belongs to the host and on the
count of draws (R180; log entry 5). -/
theorem State.powerOnReset_congr {s t : State} (hbuf : t.buf = s.buf) (hacts : t.hostActs = s.hostActs) :
    { t.powerOnReset with draws := s.draws } = s.powerOnReset := by
  rw [State.powerOnReset, State.powerOnReset, hbuf, hacts]

/-- Settles O17: a command keeps the buffer and the plans (`exec_host`), and power-on reset overwrites the rest. -/
theorem powerOnDuringCommand : Obligations.PowerOnDuringCommand := by
  refine ⟨fun i s t h => ?_, fun s rest hA => ⟨_, step_powerOn hA, rfl, rfl, rfl, rfl⟩⟩
  obtain ⟨hbuf, hacts, -⟩ := exec_host h
  exact ⟨State.powerOnReset_congr hbuf hacts, State.powerOnReset_rsp t⟩

end Sys2Proof.Machine
end
